-- ==== Sys2Proof/Word.lean ====
section
/-! DEFINITION. The word types of the block: register words and bytes. An index and a budget are natural numbers,
since their widths are parameters (`Config.indexBits`, `Config.budgetBits`). -/

namespace Sys2Proof

/-- A register word: `XLEN = 32` (00_scope.md R9, 10_state.md R30). -/
abbrev Word := BitVec 32

/-- A byte of host memory or of an audio stream (20_memory.md R60). -/
abbrev Byte := BitVec 8

end Sys2Proof
end

