-- ==== Sys2Proof/Config.lean ====
section
/-! DEFINITION. The named parameters of 00_scope.md section 4 and the platform facts two rules of
20_memory.md need. One value is fixed for one machine; `State` carries it as a constant field (log entry 4). -/

namespace Sys2Proof

/-- `BURST_WRAP` (00_scope.md R14): what a DMA burst does when its byte range crosses the top of the
address space. -/
inductive BurstWrap where
  | wrap
  | refuse
  deriving DecidableEq, Repr

/-- A range of host-memory byte addresses, `size` bytes from `base`. -/
structure Region where
  base : Nat
  size : Nat
  deriving DecidableEq, Repr

/-- The parameters the model takes as arguments. -/
structure Config where
  /-- `STAGING_BYTES`, an integer at least 1 (00_scope.md R10): no smaller value exists. -/
  stagingBytes : PNat
  /-- `PADDR_BITS`, the width of a host-memory byte address (00_scope.md R11). -/
  paddrBits : Nat
  /-- `BUDGET_BITS`: a budget is an unsigned integer below `2 ^ budgetBits` (00_scope.md R12). -/
  budgetBits : Nat
  /-- `INDEX_BITS`: an index is an unsigned integer below `2 ^ indexBits` (00_scope.md R13, 30_encoding.md
  R91). -/
  indexBits : Nat
  /-- `DIAG_ON_RESERVED` (00_scope.md R14). -/
  diagOnReserved : Bool
  /-- `SERVICE_WHEN_INACTIVE` (00_scope.md R14, 42_playback_dma.md R178). -/
  serviceWhenInactive : Bool
  /-- `BURST_WRAP` (00_scope.md R14, 20_memory.md R71). -/
  burstWrap : BurstWrap
  /-- Where the platform puts the register window in host memory, if DMA can reach it at all
  (20_memory.md R75, R76; log entry 10). -/
  windowBase : Option Nat
  /-- The host-memory ranges whose reads have side effects (20_memory.md R74; log entry 10). -/
  readSideEffects : List Region
  deriving DecidableEq, Repr

/-- The defaults the spec chose (00_scope.md R10 to R14). The spec gives no default for the two
platform facts: no window in DMA reach and no side-effecting range (DESIGN CHOICE, log entry 10). -/
def Config.default : Config where
  stagingBytes := 4096
  paddrBits := 32
  budgetBits := 32
  indexBits := 32
  diagOnReserved := true
  serviceWhenInactive := false
  burstWrap := .wrap
  windowBase := none
  readSideEffects := []

/-- The size of the register window: "11 slots total — 44 bytes of address space" (00_scope.md R8). -/
def windowBytes : Nat := 44

end Sys2Proof
end

