-- ==== Sys2Proof/Machine/RegFile.lean ====
section
/-! DEFINITION. The register file of 10_state.md section 1: its eleven slots, their word indices, and the
one read and the one write every operation uses. -/

namespace Sys2Proof

/-- The eleven slots of the register file (10_state.md R31): ten named registers and the reserved slot. -/
inductive Slot where
  | codecCtrl | codecAddr | codecDataOut | codecDataIn
  | playCtrl | playAddr | playRemaining
  | reserved
  | capCtrl | capAddr | capRemaining
  deriving DecidableEq, Repr

/-- The word index of a slot (10_state.md R31). -/
def Slot.index : Slot → Nat
  | .codecCtrl => 0
  | .codecAddr => 1
  | .codecDataOut => 2
  | .codecDataIn => 3
  | .playCtrl => 4
  | .playAddr => 5
  | .playRemaining => 6
  | .reserved => 7
  | .capCtrl => 8
  | .capAddr => 9
  | .capRemaining => 10

/-- The slot at a word index; none at an index of 11 and above, which is out of range (10_state.md R31,
20_memory.md R61, 30_encoding.md R94). -/
def Slot.ofIndex : Nat → Option Slot
  | 0 => some .codecCtrl
  | 1 => some .codecAddr
  | 2 => some .codecDataOut
  | 3 => some .codecDataIn
  | 4 => some .playCtrl
  | 5 => some .playAddr
  | 6 => some .playRemaining
  | 7 => some .reserved
  | 8 => some .capCtrl
  | 9 => some .capAddr
  | 10 => some .capRemaining
  | _ => none

/-- The register file: eleven words of 32 bits, "the block's only mutable state" (10_state.md R30).
The same shape is the operand of RESTORE (30_encoding.md R99) and a snapshot (44_lifecycle.md R213). -/
structure RegFile where
  codecCtrl : Word
  codecAddr : Word
  codecDataOut : Word
  codecDataIn : Word
  playCtrl : Word
  playAddr : Word
  playRemaining : Word
  reserved : Word
  capCtrl : Word
  capAddr : Word
  capRemaining : Word
  deriving DecidableEq, Repr

/-- `x[i]` (00_scope.md R18). -/
def RegFile.get (x : RegFile) : Slot → Word
  | .codecCtrl => x.codecCtrl
  | .codecAddr => x.codecAddr
  | .codecDataOut => x.codecDataOut
  | .codecDataIn => x.codecDataIn
  | .playCtrl => x.playCtrl
  | .playAddr => x.playAddr
  | .playRemaining => x.playRemaining
  | .reserved => x.reserved
  | .capCtrl => x.capCtrl
  | .capAddr => x.capAddr
  | .capRemaining => x.capRemaining

/-- `x[i] <- v` (00_scope.md R18). -/
def RegFile.set (x : RegFile) (r : Slot) (v : Word) : RegFile :=
  match r with
  | .codecCtrl => { x with codecCtrl := v }
  | .codecAddr => { x with codecAddr := v }
  | .codecDataOut => { x with codecDataOut := v }
  | .codecDataIn => { x with codecDataIn := v }
  | .playCtrl => { x with playCtrl := v }
  | .playAddr => { x with playAddr := v }
  | .playRemaining => { x with playRemaining := v }
  | .reserved => { x with reserved := v }
  | .capCtrl => { x with capCtrl := v }
  | .capAddr => { x with capAddr := v }
  | .capRemaining => { x with capRemaining := v }

/-- All eleven words zero, the reset contents (10_state.md R54). -/
def RegFile.zero : RegFile := ⟨0, 0, 0, 0, 0, 0, 0, 0, 0, 0, 0⟩

/-- The words `w[0] .. w[10]` in index order (30_encoding.md R99). -/
def RegFile.toWords (x : RegFile) : List Word :=
  [x.codecCtrl, x.codecAddr, x.codecDataOut, x.codecDataIn, x.playCtrl, x.playAddr, x.playRemaining,
   x.reserved, x.capCtrl, x.capAddr, x.capRemaining]

/-- Eleven words in index order as a register file; any other number of words is none
(93_implementation_defined.md U9: refuse anything but 11 words in index order). -/
def RegFile.ofWords : List Word → Option RegFile
  | [w0, w1, w2, w3, w4, w5, w6, w7, w8, w9, w10] => some ⟨w0, w1, w2, w3, w4, w5, w6, w7, w8, w9, w10⟩
  | _ => none

end Sys2Proof
end

