-- ==== Sys2Proof/Syntax.lean ====
section
/-! DEFINITION. The operations of the block, one constructor per row of spec/opcode_table.json, and the
descriptor that spells one (30_encoding.md R92). -/

namespace Sys2Proof

/-- The operations (30_encoding.md R90, R108). -/
inductive Instr where
  /-- RD CODEC_CTRL (40_register_read.md R121) -/
  | rdCodecCtrl
  /-- RD CODEC_ADDR (R122) -/
  | rdCodecAddr
  /-- RD CODEC_DATA_OUT (R123) -/
  | rdCodecDataOut
  /-- RD CODEC_DATA_IN (R124) -/
  | rdCodecDataIn
  /-- RD PLAY_CTRL (R125) -/
  | rdPlayCtrl
  /-- RD PLAY_ADDR (R126) -/
  | rdPlayAddr
  /-- RD PLAY_REMAINING (R127) -/
  | rdPlayRemaining
  /-- RD CAP_CTRL (R128) -/
  | rdCapCtrl
  /-- RD CAP_ADDR (R129) -/
  | rdCapAddr
  /-- RD CAP_REMAINING (R130) -/
  | rdCapRemaining
  /-- RD #7, the reserved slot (R131) -/
  | rdReserved
  /-- RD #n, n at least 11 (R132) -/
  | rdOutOfRange (index : Nat)
  /-- WR CODEC_CTRL (41_register_write.md R141) -/
  | wrCodecCtrl (value : Word)
  /-- WR CODEC_ADDR (R142) -/
  | wrCodecAddr (value : Word)
  /-- WR CODEC_DATA_OUT (R143) -/
  | wrCodecDataOut (value : Word)
  /-- WR CODEC_DATA_IN (R144) -/
  | wrCodecDataIn (value : Word)
  /-- WR PLAY_CTRL (R145) -/
  | wrPlayCtrl (value : Word)
  /-- WR PLAY_ADDR (R146) -/
  | wrPlayAddr (value : Word)
  /-- WR PLAY_REMAINING (R147) -/
  | wrPlayRemaining (value : Word)
  /-- WR CAP_CTRL (R149) -/
  | wrCapCtrl (value : Word)
  /-- WR CAP_ADDR (R150) -/
  | wrCapAddr (value : Word)
  /-- WR CAP_REMAINING (R151) -/
  | wrCapRemaining (value : Word)
  /-- WR #7, the reserved slot (R148) -/
  | wrReserved (value : Word)
  /-- WR #n, n at least 11 (R152) -/
  | wrOutOfRange (index : Nat) (value : Word)
  /-- PSVC, PLAY_SERVICE (42_playback_dma.md R170) -/
  | psvc (budget : Nat)
  /-- CSVC, CAP_SERVICE (43_capture_dma.md R190) -/
  | csvc (budget : Nat)
  /-- RST, RESET (44_lifecycle.md R210) -/
  | rst
  /-- RSTR, RESTORE of `w[0] .. w[10]` (44_lifecycle.md R211) -/
  | rstr (w : RegFile)
  deriving DecidableEq, Repr

/-- The descriptor of an operation: its kind, its `arg` and the payload words (30_encoding.md R92). `H` packs
the kind with an `arg` of 32 bits (`Descriptor.h`); the field itself is an unsigned integer, since an index
has INDEX_BITS bits and a budget BUDGET_BITS (00_scope.md R12, R13; log entry 4). -/
structure Descriptor where
  kind : BitVec 3
  arg : Nat
  payload : List Word
  deriving DecidableEq, Repr

end Sys2Proof
end

