-- ==== Sys2Proof/WellFormed.lean ====
section
/-! DEFINITION. Which terms of `Instr` are operations of the block. -/

namespace Sys2Proof

/-- An index is out of range when it is 11 or more (20_memory.md R61, 30_encoding.md R102). -/
def outOfRange (index : Nat) : Bool := decide (11 ≤ index)

/-- An out-of-range access has an out-of-range index; every other term is well formed, since no value,
budget or snapshot word is illegal (30_encoding.md R98, R99, R103). -/
def Instr.wf : Instr → Bool
  | .rdOutOfRange index => outOfRange index
  | .wrOutOfRange index _ => outOfRange index
  | .rdCodecCtrl | .rdCodecAddr | .rdCodecDataOut | .rdCodecDataIn | .rdPlayCtrl | .rdPlayAddr
  | .rdPlayRemaining | .rdCapCtrl | .rdCapAddr | .rdCapRemaining | .rdReserved => true
  | .wrCodecCtrl _ | .wrCodecAddr _ | .wrCodecDataOut _ | .wrCodecDataIn _ | .wrPlayCtrl _
  | .wrPlayAddr _ | .wrPlayRemaining _ | .wrCapCtrl _ | .wrCapAddr _ | .wrCapRemaining _
  | .wrReserved _ => true
  | .psvc _ | .csvc _ | .rst | .rstr _ => true

end Sys2Proof
end

