-- ==== Sys2Proof/Decode.lean ====
section
/-! DEFINITION. Decoding a descriptor, total and rejecting by name; the encoder; the opcode table; the
layout the host's table words use; the platform's byte offsets. -/

namespace Sys2Proof

/-- Why a descriptor spells no operation. -/
inductive DecodeError where
  /-- Kinds 6 and 7 are unassigned (30_encoding.md R104). Raised by `decode`; safe: no agent of the
  spec produces one. -/
  | unassignedKind (kind : Nat)
  /-- The payload does not have the number of words its kind has (30_encoding.md R92, R93;
  93_implementation_defined.md U9). Raised by `decode`; safe: no such operation exists. -/
  | payloadLength (expected got : Nat)
  deriving DecidableEq, Repr

/-- `H` from its two fields: `H[34:32] = kind`, `H[31:0] = arg` (30_encoding.md R92). -/
def header (kind : BitVec 3) (arg : BitVec 32) : BitVec 35 := kind ++ arg

/-- The descriptor that a 35-bit `H` and a payload are (30_encoding.md R92). -/
def Descriptor.ofH (h : BitVec 35) (payload : List Word) : Descriptor :=
  ⟨h.extractLsb' 32 3, (h.extractLsb' 0 32).toNat, payload⟩

/-- The `H` of a descriptor, which holds the whole of an `arg` below 2^32 (30_encoding.md R92). -/
def Descriptor.h (d : Descriptor) : BitVec 35 := header d.kind (BitVec.ofNat 32 d.arg)

/-- Whether the `arg` field is one the agents of this machine can present: an index of INDEX_BITS bits, a
budget of BUDGET_BITS bits (00_scope.md R12, R13; 30_encoding.md R91, R98). -/
def Descriptor.argFits (cfg : Config) (d : Descriptor) : Bool :=
  match d.kind.toNat with
  | 0 | 1 => decide (d.arg < 2 ^ cfg.indexBits)
  | 2 | 3 => decide (d.arg < 2 ^ cfg.budgetBits)
  | _ => true

/-- The read row of a slot (30_encoding.md R94). -/
def Instr.readSlot : Slot → Instr
  | .codecCtrl => .rdCodecCtrl
  | .codecAddr => .rdCodecAddr
  | .codecDataOut => .rdCodecDataOut
  | .codecDataIn => .rdCodecDataIn
  | .playCtrl => .rdPlayCtrl
  | .playAddr => .rdPlayAddr
  | .playRemaining => .rdPlayRemaining
  | .reserved => .rdReserved
  | .capCtrl => .rdCapCtrl
  | .capAddr => .rdCapAddr
  | .capRemaining => .rdCapRemaining

/-- The write row of a slot (30_encoding.md R94). -/
def Instr.writeSlot (r : Slot) (value : Word) : Instr :=
  match r with
  | .codecCtrl => .wrCodecCtrl value
  | .codecAddr => .wrCodecAddr value
  | .codecDataOut => .wrCodecDataOut value
  | .codecDataIn => .wrCodecDataIn value
  | .playCtrl => .wrPlayCtrl value
  | .playAddr => .wrPlayAddr value
  | .playRemaining => .wrPlayRemaining value
  | .reserved => .wrReserved value
  | .capCtrl => .wrCapCtrl value
  | .capAddr => .wrCapAddr value
  | .capRemaining => .wrCapRemaining value

/-- `REG_READ(index)`: exact rows first, then out of range (30_encoding.md R94). -/
def Instr.readAt (index : Nat) : Instr :=
  match Slot.ofIndex index with
  | some r => .readSlot r
  | none => .rdOutOfRange index

/-- `REG_WRITE(index, value)`: exact rows first, then out of range (30_encoding.md R94). -/
def Instr.writeAt (index : Nat) (value : Word) : Instr :=
  match Slot.ofIndex index with
  | some r => .writeSlot r value
  | none => .wrOutOfRange index value

/-- The operation a payload-free kind spells, if no payload word stands there. -/
def withoutPayload (i : Instr) : List Word → Except DecodeError Instr
  | [] => .ok i
  | p => .error (.payloadLength 0 p.length)

/-- The write a one-word payload completes. -/
def withValue (index : Nat) : List Word → Except DecodeError Instr
  | [value] => .ok (.writeAt index value)
  | p => .error (.payloadLength 1 p.length)

/-- The restore an eleven-word payload completes (30_encoding.md R99). -/
def withSnapshot (p : List Word) : Except DecodeError Instr :=
  match RegFile.ofWords p with
  | some w => .ok (.rstr w)
  | none => .error (.payloadLength 11 p.length)

/-- The operation a descriptor spells (30_encoding.md R92 to R94, R104). The `arg` of RESET and RESTORE
is ignored. -/
def decode (d : Descriptor) : Except DecodeError Instr :=
  match d.kind.toNat with
  | 0 => withoutPayload (.readAt d.arg) d.payload
  | 1 => withValue d.arg d.payload
  | 2 => withoutPayload (.psvc d.arg) d.payload
  | 3 => withoutPayload (.csvc d.arg) d.payload
  | 4 => withoutPayload .rst d.payload
  | 5 => withSnapshot d.payload
  | k => .error (.unassignedKind k)

/-- The descriptor of a register read. -/
def encodeRead (r : Slot) : Descriptor := ⟨0, r.index, []⟩

/-- The descriptor of a register write. -/
def encodeWrite (r : Slot) (value : Word) : Descriptor := ⟨1, r.index, [value]⟩

/-- The descriptor of an operation, from the kind codes and indices of 30_encoding.md R92 to R94. -/
def encode : Instr → Descriptor
  | .rdCodecCtrl => encodeRead .codecCtrl
  | .rdCodecAddr => encodeRead .codecAddr
  | .rdCodecDataOut => encodeRead .codecDataOut
  | .rdCodecDataIn => encodeRead .codecDataIn
  | .rdPlayCtrl => encodeRead .playCtrl
  | .rdPlayAddr => encodeRead .playAddr
  | .rdPlayRemaining => encodeRead .playRemaining
  | .rdCapCtrl => encodeRead .capCtrl
  | .rdCapAddr => encodeRead .capAddr
  | .rdCapRemaining => encodeRead .capRemaining
  | .rdReserved => encodeRead .reserved
  | .rdOutOfRange index => ⟨0, index, []⟩
  | .wrCodecCtrl value => encodeWrite .codecCtrl value
  | .wrCodecAddr value => encodeWrite .codecAddr value
  | .wrCodecDataOut value => encodeWrite .codecDataOut value
  | .wrCodecDataIn value => encodeWrite .codecDataIn value
  | .wrPlayCtrl value => encodeWrite .playCtrl value
  | .wrPlayAddr value => encodeWrite .playAddr value
  | .wrPlayRemaining value => encodeWrite .playRemaining value
  | .wrCapCtrl value => encodeWrite .capCtrl value
  | .wrCapAddr value => encodeWrite .capAddr value
  | .wrCapRemaining value => encodeWrite .capRemaining value
  | .wrReserved value => encodeWrite .reserved value
  | .wrOutOfRange index value => ⟨1, index, [value]⟩
  | .psvc budget => ⟨2, budget, []⟩
  | .csvc budget => ⟨3, budget, []⟩
  | .rst => ⟨4, 0, []⟩
  | .rstr w => ⟨5, 0, w.toWords⟩

/-- A row of spec/opcode_table.json: the mnemonic as the table spells it, `match` and `mask` over `H`,
and whether the row has `"precedence": "last"` (30_encoding.md R92, R94, R108). -/
structure Row where
  mnemonic : String
  pattern : BitVec 35
  mask : BitVec 35
  last : Bool
  deriving DecidableEq, Repr

/-- A row fits `H` when the masked bits are the row's. -/
def Row.fits (r : Row) (h : BitVec 35) : Bool := h &&& r.mask == r.pattern

/-- An exact row: kind and all 32 index bits compared. -/
def exactRow (mnemonic : String) (pattern : BitVec 35) : Row := ⟨mnemonic, pattern, 0x7FFFFFFFF#35, false⟩

/-- A row that compares the kind only. -/
def kindRow (mnemonic : String) (pattern : BitVec 35) (last : Bool) : Row :=
  ⟨mnemonic, pattern, 0x700000000#35, last⟩

/-- The read rows of spec/opcode_table.json. -/
def readRows : List Row :=
  [exactRow "RD_CODEC_CTRL" 0x000000000#35, exactRow "RD_CODEC_ADDR" 0x000000001#35,
   exactRow "RD_CODEC_DATA_OUT" 0x000000002#35, exactRow "RD_CODEC_DATA_IN" 0x000000003#35,
   exactRow "RD_PLAY_CTRL" 0x000000004#35, exactRow "RD_PLAY_ADDR" 0x000000005#35,
   exactRow "RD_PLAY_REMAINING" 0x000000006#35, exactRow "RD_CAP_CTRL" 0x000000008#35,
   exactRow "RD_CAP_ADDR" 0x000000009#35, exactRow "RD_CAP_REMAINING" 0x00000000A#35,
   exactRow "RD__7" 0x000000007#35, kindRow "RD__out_of_range" 0x000000000#35 true]

/-- The write rows of spec/opcode_table.json. -/
def writeRows : List Row :=
  [exactRow "WR_CODEC_CTRL" 0x100000000#35, exactRow "WR_CODEC_ADDR" 0x100000001#35,
   exactRow "WR_CODEC_DATA_OUT" 0x100000002#35, exactRow "WR_CODEC_DATA_IN" 0x100000003#35,
   exactRow "WR_PLAY_CTRL" 0x100000004#35, exactRow "WR_PLAY_ADDR" 0x100000005#35,
   exactRow "WR_PLAY_REMAINING" 0x100000006#35, exactRow "WR_CAP_CTRL" 0x100000008#35,
   exactRow "WR_CAP_ADDR" 0x100000009#35, exactRow "WR_CAP_REMAINING" 0x10000000A#35,
   exactRow "WR__7" 0x100000007#35, kindRow "WR__out_of_range" 0x100000000#35 true]

/-- The service and lifecycle rows of spec/opcode_table.json. -/
def eventRows : List Row :=
  [kindRow "PSVC" 0x200000000#35 false, kindRow "CSVC" 0x300000000#35 false,
   kindRow "RST" 0x400000000#35 false, kindRow "RSTR" 0x500000000#35 false]

/-- The 28 rows of spec/opcode_table.json, in its order (30_encoding.md R108). -/
def opcodeTable : List Row := readRows ++ writeRows ++ eventRows

/-- The row that `H` matches, the exact rows tried before the last ones (30_encoding.md R94, R108). -/
def lookupRow (h : BitVec 35) : Option Row :=
  ((opcodeTable.filter fun r => !r.last).find? fun r => r.fits h).or
    ((opcodeTable.filter fun r => r.last).find? fun r => r.fits h)

/-- The mnemonic of an operation's row, as spec/opcode_table.json spells it. -/
def Instr.mnemonic : Instr → String
  | .rdCodecCtrl => "RD_CODEC_CTRL"
  | .rdCodecAddr => "RD_CODEC_ADDR"
  | .rdCodecDataOut => "RD_CODEC_DATA_OUT"
  | .rdCodecDataIn => "RD_CODEC_DATA_IN"
  | .rdPlayCtrl => "RD_PLAY_CTRL"
  | .rdPlayAddr => "RD_PLAY_ADDR"
  | .rdPlayRemaining => "RD_PLAY_REMAINING"
  | .rdCapCtrl => "RD_CAP_CTRL"
  | .rdCapAddr => "RD_CAP_ADDR"
  | .rdCapRemaining => "RD_CAP_REMAINING"
  | .rdReserved => "RD__7"
  | .rdOutOfRange _ => "RD__out_of_range"
  | .wrCodecCtrl _ => "WR_CODEC_CTRL"
  | .wrCodecAddr _ => "WR_CODEC_ADDR"
  | .wrCodecDataOut _ => "WR_CODEC_DATA_OUT"
  | .wrCodecDataIn _ => "WR_CODEC_DATA_IN"
  | .wrPlayCtrl _ => "WR_PLAY_CTRL"
  | .wrPlayAddr _ => "WR_PLAY_ADDR"
  | .wrPlayRemaining _ => "WR_PLAY_REMAINING"
  | .wrCapCtrl _ => "WR_CAP_CTRL"
  | .wrCapAddr _ => "WR_CAP_ADDR"
  | .wrCapRemaining _ => "WR_CAP_REMAINING"
  | .wrReserved _ => "WR__7"
  | .wrOutOfRange _ _ => "WR__out_of_range"
  | .psvc _ => "PSVC"
  | .csvc _ => "CSVC"
  | .rst => "RST"
  | .rstr _ => "RSTR"

/-- The number of payload words a kind has (30_encoding.md R93). -/
def payloadWords : Nat → Nat
  | 1 => 1
  | 5 => 11
  | _ => 0

/-- The descriptor a table word stands for. The spec lays no descriptor out in memory (30_encoding.md
R92 calls it a tabulation device); DESIGN CHOICE, log entry 12: `H` is bits 34 to 0, bits 39 to 35 fill
its fifth byte and are not read, and payload word `k` is bits `40 + 32 k` and up. Bits of the word
above `nbits` are 0. -/
def tableDescriptor (nbits w : Nat) : Descriptor :=
  let v := w % 2 ^ nbits
  let h := BitVec.ofNat 35 v
  .ofH h ((List.range (payloadWords (h.extractLsb' 32 3).toNat)).map fun k =>
    BitVec.ofNat 32 (v >>> (40 + 32 * k)))

/-- What the decoder reads from a table word. -/
def decodeTableWord (nbits w : Nat) : Option Instr :=
  match decode (tableDescriptor nbits w) with
  | .ok i => some i
  | .error _ => none

/-- The word index of a platform access of `width` bytes at byte offset `off` of the window: only whole
words at multiples of 4 have one (20_memory.md R62, R63). -/
def hostAccessIndex (off width : Nat) : Option Nat :=
  if width = 4 ∧ off % 4 = 0 then some (off / 4) else none

end Sys2Proof
end

