-- ==== Sys2Proof/Machine/Ports.lean ====
section
/-! DEFINITION. The interfaces of the block (00_scope.md R16): what leaves it, what enters it, and which
agent each operation comes from. -/

namespace Sys2Proof.Machine

/-- The four interrupt lines (60_exceptions.md R228). -/
inductive Line where
  | codecRequest
  | codecReply
  | playDone
  | capDone
  deriving DecidableEq, Repr

/-- The line numbers of 60_exceptions.md R228. -/
def Line.number : Line → Nat
  | .codecRequest => 0
  | .codecReply => 1
  | .playDone => 2
  | .capDone => 3

/-- The diagnostic codes (60_exceptions.md R226). -/
inductive DiagCode where
  | unknownRead
  | unknownWrite
  deriving DecidableEq, Repr

/-- The code numbers of 60_exceptions.md R226. -/
def DiagCode.number : DiagCode → Nat
  | .unknownRead => 0
  | .unknownWrite => 1

/-- What leaves the block on its output ports (00_scope.md R16), one event each. -/
inductive Event where
  /-- The word a REG_READ returned to the host (40_register_read.md R120). -/
  | readData (v : Word)
  /-- `PULSE(line)`: the line asserted and released (60_exceptions.md R229). -/
  | pulse (line : Line)
  /-- `Diag(code, index)` (60_exceptions.md R226). -/
  | diag (code : DiagCode) (index : Nat)
  /-- One offer of a chunk read at `cursor`, of which the sink took the first `taken` bytes
  (00_scope.md R19, 42_playback_dma.md R172). -/
  | offer (cursor : Word) (bytes : List Byte) (taken : Nat)
  /-- One pull of up to `asked` bytes and the bytes the source produced (00_scope.md R20,
  43_capture_dma.md R192). -/
  | pull (asked : Nat) (bytes : List Byte)
  deriving DecidableEq, Repr

/-- A DMA channel (00_scope.md glossary). -/
inductive Channel where
  | play
  | cap
  deriving DecidableEq, Repr

/-- The slot of a channel's CTRL register (10_state.md R36, R40). -/
def Channel.ctrl : Channel → Slot
  | .play => .playCtrl
  | .cap => .capCtrl

/-- The slot of a channel's ADDR register (10_state.md R37, R41). -/
def Channel.addr : Channel → Slot
  | .play => .playAddr
  | .cap => .capAddr

/-- The slot of a channel's REMAINING register (10_state.md R38, R42). -/
def Channel.remaining : Channel → Slot
  | .play => .playRemaining
  | .cap => .capRemaining

/-- A channel's completion line (60_exceptions.md R228). -/
def Channel.doneLine : Channel → Line
  | .play => .playDone
  | .cap => .capDone

/-- What an outside agent presents to the block or to the memory the block shares with it. -/
inductive Input where
  /-- An operation of the block, spelled by its descriptor (30_encoding.md R92). -/
  | op (d : Descriptor)
  /-- A host store of one byte to host memory between operations (20_memory.md R80, R83; log entry 14). -/
  | hostStore (addr : Nat) (value : Byte)
  deriving DecidableEq, Repr

/-- The three agents (00_scope.md R5). -/
inductive Agent where
  | host
  | sink
  | source
  deriving DecidableEq, Repr

/-- The agent that issues an operation (30_encoding.md R93). -/
def issuer : Instr → Agent
  | .psvc _ => .sink
  | .csvc _ => .source
  | .rdCodecCtrl | .rdCodecAddr | .rdCodecDataOut | .rdCodecDataIn | .rdPlayCtrl | .rdPlayAddr
  | .rdPlayRemaining | .rdCapCtrl | .rdCapAddr | .rdCapRemaining | .rdReserved | .rdOutOfRange _
  | .wrCodecCtrl _ | .wrCodecAddr _ | .wrCodecDataOut _ | .wrCodecDataIn _ | .wrPlayCtrl _
  | .wrPlayAddr _ | .wrPlayRemaining _ | .wrCapCtrl _ | .wrCapAddr _ | .wrCapRemaining _
  | .wrReserved _ | .wrOutOfRange _ _ | .rst | .rstr _ => .host

end Sys2Proof.Machine
end

