-- ==== Sys2Proof/Machine/State.lean ====
section
/-! DEFINITION. The state of the machine, why a step can stop, and the state after reset. -/

namespace Sys2Proof.Machine

/-- Host memory (20_memory.md R60): pairs of address and byte, addresses strictly rising, no pair whose
byte is what an unlisted address reads as. -/
abbrev Memory := List Host.Cell

/-- The state between two operations. The spec's own state is the register file and the two stream
flags (10_state.md R30, R46, R47); the other fields are host memory, the parameters, what the outside
agents are about to do, and what has left the block (INVENTORY.md, "State"). -/
structure State where
  /-- `x[0] .. x[10]` (10_state.md R30). -/
  regs : RegFile
  /-- The output `play_active` (10_state.md R46). -/
  playActive : Bool
  /-- The output `cap_active` (10_state.md R47). -/
  capActive : Bool
  /-- Host memory (20_memory.md R60). -/
  mem : Memory
  /-- The parameters, constant (log entry 4). -/
  cfg : Config
  /-- The inputs to come, oldest first (00_scope.md R7, 20_memory.md R78; log entry 1). -/
  pending : List Input
  /-- The sink's answers to come (00_scope.md R19; log entry 2). -/
  sinkAnswers : List Nat
  /-- The source's bursts to come (00_scope.md R20; log entry 3). -/
  sourceAnswers : List (List Byte)
  /-- What has left the block, oldest first (60_exceptions.md R229; log entry 7). -/
  trace : List Event
  deriving DecidableEq, Repr

/-- No fault exists: "There are no fatal errors in this subsystem; all conditions are absorbed and leave
the register file in a well-defined, continuable state" (60_exceptions.md R225). -/
inductive Fault where
  deriving DecidableEq, Repr

/-- Why the model gives an input no meaning; each is a refusal the spec itself asks for. -/
inductive Refusal where
  /-- An instruction without a meaning yet. Raised by no arm of this model. Safe. -/
  | notModelled (mnemonic : String)
  /-- The descriptor spells no operation (30_encoding.md R104). Raised by `step`. Safe. -/
  | badDescriptor (e : DecodeError)
  /-- The index of a register access does not have INDEX_BITS bits, or the budget of a service event not
  BUDGET_BITS: by 00_scope.md R12 and R13 no agent can present it. Raised by `step`. Safe. -/
  | argOutsideDomain
  /-- A service event for a channel whose stream flag is 0 while SERVICE_WHEN_INACTIVE is false: by
  42_playback_dma.md R178 and 43_capture_dma.md R198 no agent issues it. Raised by `step`. Safe in that
  nothing is proved of such a run; the parameter's default itself errs toward proving (D12). -/
  | serviceWhileInactive (ch : Channel)
  /-- A burst past 2^32 while BURST_WRAP is `refuse` (20_memory.md R71). Raised by PSVC and CSVC. Safe. -/
  | burstCrossesTop
  /-- A burst that covers the register window (20_memory.md R75). Raised by PSVC and CSVC. Safe. -/
  | burstCoversWindow
  /-- A playback burst that covers an address with read side effects (20_memory.md R74). Raised by PSVC.
  Safe. -/
  | burstReadsSideEffects
  deriving DecidableEq, Repr

/-- The state at construction, which equals the state after RESET (10_state.md R54, R55, 44_lifecycle.md
R212): all words 0, both flags 0. Nothing is stored, pending, answered or emitted yet, and the
parameters have the spec's defaults (DESIGN CHOICE, log entries 1 to 7). -/
def State.reset : State where
  regs := RegFile.zero
  playActive := false
  capActive := false
  mem := []
  cfg := Config.default
  pending := []
  sinkAnswers := []
  sourceAnswers := []
  trace := []

end Sys2Proof.Machine
end

