-- ==== Sys2Proof/Machine/Memory.lean ====
section
/-! DEFINITION. Host memory: one read and one write of a byte, the addresses of a burst, and the burst
accesses `MemRead` and `MemWrite` built from them (00_scope.md R18, 20_memory.md R67 to R73). -/

namespace Sys2Proof.Machine

/-- What a byte of host memory that nothing has stored reads as. The spec leaves it to the platform
(20_memory.md R73); DESIGN CHOICE, unsafe, log entry 5. -/
def unwrittenByte : Byte := 0

/-- One byte of host memory. Total: "a DMA access cannot fail" (20_memory.md R73). -/
def Memory.read : Memory → Nat → Byte
  | [], _ => unwrittenByte
  | c :: m, a => if c.1 = a then c.2 else Memory.read m a

/-- A cell put before a memory whose addresses all lie above it, in canonical form. -/
def Memory.cons (a : Nat) (b : Byte) (m : Memory) : Memory :=
  if b = unwrittenByte then m else (a, b) :: m

/-- Store one byte, keeping the canonical form. -/
def Memory.write : Memory → Nat → Byte → Memory
  | [], a, b => Memory.cons a b []
  | c :: m, a, b =>
    if a < c.1 then Memory.cons a b (c :: m)
    else if a = c.1 then Memory.cons a b m
    else c :: Memory.write m a b

/-- The canonical form: addresses strictly rising, no listed byte equal to `unwrittenByte`. -/
def Memory.wf (m : Memory) : Bool :=
  decide (m.Pairwise fun c d => c.1 < d.1) && m.all fun c => c.2 != unwrittenByte

/-- The address of byte `k` of a burst at `cursor` (20_memory.md R71). -/
def physAddr (cfg : Config) (cursor : Word) (k : Nat) : Nat := (cursor.toNat + k) % 2 ^ cfg.paddrBits

/-- The addresses of a burst of `n` bytes at `cursor`, in order (20_memory.md R67, R71). -/
def burstAddrs (cfg : Config) (cursor : Word) (n : Nat) : List Nat :=
  (List.range n).map (physAddr cfg cursor)

/-- `MemRead(cursor, n)` (00_scope.md R18). -/
def memRead (cfg : Config) (m : Memory) (cursor : Word) (n : Nat) : List Byte :=
  (burstAddrs cfg cursor n).map m.read

/-- Byte `k` and the bytes after it of a burst at `cursor`, stored in order. -/
def memWriteFrom (cfg : Config) (cursor : Word) (m : Memory) (k : Nat) : List Byte → Memory
  | [] => m
  | b :: bs => memWriteFrom cfg cursor (m.write (physAddr cfg cursor k) b) (k + 1) bs

/-- `MemWrite(cursor, n, bytes)` for `n` bytes (00_scope.md R18). -/
def memWrite (cfg : Config) (m : Memory) (cursor : Word) (bytes : List Byte) : Memory :=
  memWriteFrom cfg cursor m 0 bytes

/-- Whether an address lies in a region. -/
def covers (r : Region) (a : Nat) : Bool := decide (r.base ≤ a) && decide (a < r.base + r.size)

/-- Whether a burst touches a region. -/
def burstTouches (cfg : Config) (cursor : Word) (n : Nat) (r : Region) : Bool :=
  (burstAddrs cfg cursor n).any (covers r)

/-- Whether a burst covers the register window (20_memory.md R75). -/
def touchesWindow (cfg : Config) (cursor : Word) (n : Nat) : Bool :=
  match cfg.windowBase with
  | some base => burstTouches cfg cursor n ⟨base, windowBytes⟩
  | none => false

/-- Why a burst of `n` bytes at `cursor` has no meaning, if it has none: past 2^32 under `refuse`
(20_memory.md R71), over the register window (R75), or, for a read, over side effects (R74). -/
def burstRefusal (cfg : Config) (ch : Channel) (cursor : Word) (n : Nat) : Option Refusal :=
  if cfg.burstWrap = .refuse ∧ 2 ^ 32 < cursor.toNat + n then some .burstCrossesTop
  else if touchesWindow cfg cursor n then some .burstCoversWindow
  else if ch = .play ∧ cfg.readSideEffects.any (burstTouches cfg cursor n) then
    some .burstReadsSideEffects
  else none

end Sys2Proof.Machine
end

