-- ==== Sys2Proof/Machine/Operands.lean ====
section
/-! DEFINITION. The operand forms: the value fields of 30_encoding.md R95 to R97, the budget of R98, and the
answers of the sink and the source (00_scope.md R19, R20). -/

namespace Sys2Proof.Machine

/-- `RQEN`, bit 0 of a value written to CODEC_CTRL (30_encoding.md R95). -/
def rqen (value : Word) : Bool := value.getLsbD 0

/-- `DIR`, bit 1 of a value written to CODEC_CTRL: 0 reply, 1 request (30_encoding.md R95). -/
def dir (value : Word) : Bool := value.getLsbD 1

/-- The word CODEC_CTRL stores for a written value (30_encoding.md R95). -/
def codecStored (value : Word) : Word := value &&& 0xFFFFFFFE#32

/-- `EN`, bit 0 of a DMA CTRL word (30_encoding.md R96). -/
def enabled (ctrl : Word) : Bool := ctrl.getLsbD 0

/-- `want = min(x[REMAINING], budget)` (30_encoding.md R98, 42_playback_dma.md R171, 43_capture_dma.md
R191). -/
def want (ch : Channel) (budget : Nat) (s : State) : Nat :=
  min (s.regs.get ch.remaining).toNat budget

/-- The chunk of one iteration, `min(STAGING_BYTES, want - done)` (42_playback_dma.md R172). -/
def chunkSize (cfg : Config) (want done : Nat) : Nat := min (cfg.stagingBytes : Nat) (want - done)

/-- The local cursor `x[ADDR] +32 done` (42_playback_dma.md R172, 43_capture_dma.md R192). -/
def localCursor (base : Word) (done : Nat) : Word := base + BitVec.ofNat 32 done

/-- The count the sink takes of `chunk` offered bytes: its answer, within `0 <= a <= chunk` (00_scope.md
R19; log entry 2). -/
def taken (answer chunk : Nat) : Nat := min answer chunk

/-- The bytes the source produces for a pull of `chunk`: its burst, at most `chunk` bytes (00_scope.md
R20; log entry 3). -/
def produced (burst : List Byte) (chunk : Nat) : List Byte := burst.take chunk

end Sys2Proof.Machine
end

