-- ==== Sys2Proof/Machine/Ops.lean ====
section
/-! DEFINITION. The operations the meanings share. The block takes no exception and returns from none
(60_exceptions.md R225, R238, R239); what stands in their place is the diagnostic of an unknown access and
the interrupt pulse, one shared operation each. -/

namespace Sys2Proof.Machine

/-- Append events to the output trace (60_exceptions.md R229). -/
def emit (es : List Event) (s : State) : State := { s with trace := s.trace ++ es }

/-- `Pulse(line)` (60_exceptions.md R229). -/
def pulse (l : Line) (s : State) : State := emit [.pulse l] s

/-- `Diag(code, index)` (60_exceptions.md R226). -/
def diag (c : DiagCode) (index : Nat) (s : State) : State := emit [.diag c index] s

/-- The data a REG_READ returns to the host (40_register_read.md R120). -/
def returnData (v : Word) (s : State) : State := emit [.readData v] s

/-- `x[r] <- v` (00_scope.md R18). -/
def storeReg (r : Slot) (v : Word) (s : State) : State := { s with regs := s.regs.set r v }

/-- A read of a named register returns the stored word (40_register_read.md R120). -/
def readReg (r : Slot) (s : State) : State := returnData (s.regs.get r) s

/-- An access to the reserved slot is a diagnostic when DIAG_ON_RESERVED, and nothing else
(40_register_read.md R131, 41_register_write.md R148). -/
def reservedDiag (c : DiagCode) (s : State) : State := if s.cfg.diagOnReserved then diag c 7 s else s

/-- The commit of a service operation (42_playback_dma.md R173, 43_capture_dma.md R193):
`ADDR <- ADDR +32 done`, `REMAINING <- REMAINING - done`. -/
def commit (ch : Channel) (done : Nat) (s : State) : State :=
  storeReg ch.remaining (s.regs.get ch.remaining - BitVec.ofNat 32 done)
    (storeReg ch.addr (s.regs.get ch.addr + BitVec.ofNat 32 done) s)

/-- The completion check (42_playback_dma.md R174, 43_capture_dma.md R194). -/
def complete (ch : Channel) (s : State) : State :=
  if enabled (s.regs.get ch.ctrl) ∧ s.regs.get ch.remaining = 0 then pulse ch.doneLine s else s

/-- A host store of one byte to host memory between two operations (20_memory.md R80, R83). -/
def hostStore (addr : Nat) (value : Byte) (s : State) : State := { s with mem := s.mem.write addr value }

end Sys2Proof.Machine
end

