-- ==== Sys2Proof/Machine/Flags.lean ====
section
/-! DEFINITION. The stream-activity flags. The block has no condition codes (10_state.md R45); these two
outputs are the only flags it has. -/

namespace Sys2Proof.Machine

/-- `Reevaluate()` (41_register_write.md R153): each flag becomes its channel's enable bit. -/
def reevaluate (s : State) : State :=
  { s with playActive := enabled (s.regs.get .playCtrl), capActive := enabled (s.regs.get .capCtrl) }

/-- Both flags cleared unconditionally, as RESET does (44_lifecycle.md R210). -/
def deactivate (s : State) : State := { s with playActive := false, capActive := false }

/-- A channel's stream flag. -/
def streamActive (ch : Channel) (s : State) : Bool :=
  match ch with
  | .play => s.playActive
  | .cap => s.capActive

end Sys2Proof.Machine
end

