-- ==== Sys2Proof/Machine/Capture.lean ====
section
/-! DEFINITION. The capture service operation, source to memory (43_capture_dma.md). -/

namespace Sys2Proof.Machine

/-- What the chunk loop of one capture service leaves: the bytes moved, host memory, the source's bursts
not yet given, and the pulls made. -/
structure CapRun where
  done : Nat
  mem : Memory
  answers : List (List Byte)
  pulls : List Event
  deriving DecidableEq, Repr

/-- A run with one pull before it. -/
def CapRun.after (e : Event) (run : CapRun) : CapRun := { run with pulls := e :: run.pulls }

/-- The chunk loop (43_capture_dma.md R192), one iteration for each burst of the source: a pull of at
most `chunk` bytes; exactly the bytes produced are stored at the local cursor; it ends when
`done = want` or at the first empty burst. A source with no further burst produces nothing (log entry 3). -/
def capLoop (cfg : Config) (base : Word) (want : Nat) :
    List (List Byte) → Memory → Nat → Except Refusal CapRun
  | answers, mem, done =>
    if want ≤ done then .ok ⟨done, mem, answers, []⟩
    else
      match answers with
      | [] => .ok ⟨done, mem, [], [.pull (chunkSize cfg want done) []]⟩
      | burst :: rest =>
        if (produced burst (chunkSize cfg want done)).length = 0 then
          .ok ⟨done, mem, rest, [.pull (chunkSize cfg want done) []]⟩
        else
          match burstRefusal cfg .cap (localCursor base done)
              (produced burst (chunkSize cfg want done)).length with
          | some r => .error r
          | none =>
            (capLoop cfg base want rest
              (memWrite cfg mem (localCursor base done) (produced burst (chunkSize cfg want done)))
              (done + (produced burst (chunkSize cfg want done)).length)).map
              (CapRun.after (.pull (chunkSize cfg want done) (produced burst (chunkSize cfg want done))))

/-- The state after the chunk loop: commit, then the completion check (43_capture_dma.md R193, R194). -/
def capFinish (s : State) (run : CapRun) : State :=
  complete .cap (commit .cap run.done
    (emit run.pulls { s with mem := run.mem, sourceAnswers := run.answers }))

/-- CSVC (43_capture_dma.md R190). -/
def execCsvc (budget : Nat) (s : State) : Host.Outcome State Fault Refusal :=
  if want .cap budget s = 0 then .next s
  else
    match capLoop s.cfg (s.regs.get .capAddr) (want .cap budget s) s.sourceAnswers s.mem 0 with
    | .error r => .refused r
    | .ok run => .next (capFinish s run)

end Sys2Proof.Machine
end

