-- ==== Sys2Proof/Machine/Lifecycle.lean ====
section
/-! DEFINITION. Reset and restore (44_lifecycle.md), and what saving a snapshot reads. -/

namespace Sys2Proof.Machine

/-- RST (44_lifecycle.md R210): all eleven words 0, both flags 0; host memory is not touched. -/
def execRst (s : State) : Host.Outcome State Fault Refusal :=
  .next (deactivate { s with regs := RegFile.zero })

/-- RSTR (44_lifecycle.md R211): the eleven words verbatim, then re-evaluation, in one operation. -/
def execRstr (w : RegFile) (s : State) : Host.Outcome State Fault Refusal :=
  .next (reevaluate { s with regs := w })

/-- What saving a snapshot reads: the eleven words, the reserved one included (44_lifecycle.md R213). -/
def snapshot (s : State) : RegFile := s.regs

end Sys2Proof.Machine
end

