-- ==== Sys2Proof/Machine/Playback.lean ====
section
/-! DEFINITION. The playback service operation, memory to sink (42_playback_dma.md). -/

namespace Sys2Proof.Machine

/-- What the chunk loop of one playback service leaves: the bytes moved, the sink's answers not yet
given, and the offers made. -/
structure PlayRun where
  done : Nat
  answers : List Nat
  offers : List Event
  deriving DecidableEq, Repr

/-- A run with one offer before it. -/
def PlayRun.after (e : Event) (run : PlayRun) : PlayRun := { run with offers := e :: run.offers }

/-- The chunk loop (42_playback_dma.md R172), one iteration for each answer of the sink: it ends when
`done = want` or at the first zero answer, and a short answer does not end it. A sink with no further
answer takes nothing (log entry 2). -/
def playLoop (cfg : Config) (mem : Memory) (base : Word) (want : Nat) :
    List Nat → Nat → Except Refusal PlayRun
  | answers, done =>
    if want ≤ done then .ok ⟨done, answers, []⟩
    else
      match burstRefusal cfg .play (localCursor base done) (chunkSize cfg want done) with
      | some r => .error r
      | none =>
        match answers with
        | [] =>
          .ok ⟨done, [], [.offer (localCursor base done)
            (memRead cfg mem (localCursor base done) (chunkSize cfg want done)) 0]⟩
        | a :: rest =>
          if taken a (chunkSize cfg want done) = 0 then
            .ok ⟨done, rest, [.offer (localCursor base done)
              (memRead cfg mem (localCursor base done) (chunkSize cfg want done)) 0]⟩
          else
            (playLoop cfg mem base want rest (done + taken a (chunkSize cfg want done))).map
              (PlayRun.after (.offer (localCursor base done)
                (memRead cfg mem (localCursor base done) (chunkSize cfg want done))
                (taken a (chunkSize cfg want done))))

/-- The state after the chunk loop: commit, then the completion check (42_playback_dma.md R173, R174). -/
def playFinish (s : State) (run : PlayRun) : State :=
  complete .play (commit .play run.done (emit run.offers { s with sinkAnswers := run.answers }))

/-- PSVC (42_playback_dma.md R170). -/
def execPsvc (budget : Nat) (s : State) : Host.Outcome State Fault Refusal :=
  if want .play budget s = 0 then .next s
  else
    match playLoop s.cfg s.mem (s.regs.get .playAddr) (want .play budget s) s.sinkAnswers 0 with
    | .error r => .refused r
    | .ok run => .next (playFinish s run)

end Sys2Proof.Machine
end

