-- ==== Sys2Proof/Machine/ReadRegs.lean ====
section
/-! DEFINITION. The register read operations (40_register_read.md). -/

namespace Sys2Proof.Machine

/-- RD CODEC_CTRL (40_register_read.md R121). -/
def execRdCodecCtrl (s : State) : Host.Outcome State Fault Refusal := .next (readReg .codecCtrl s)

/-- RD CODEC_ADDR (40_register_read.md R122). -/
def execRdCodecAddr (s : State) : Host.Outcome State Fault Refusal := .next (readReg .codecAddr s)

/-- RD CODEC_DATA_OUT (40_register_read.md R123). -/
def execRdCodecDataOut (s : State) : Host.Outcome State Fault Refusal := .next (readReg .codecDataOut s)

/-- RD CODEC_DATA_IN (40_register_read.md R124). -/
def execRdCodecDataIn (s : State) : Host.Outcome State Fault Refusal := .next (readReg .codecDataIn s)

/-- RD PLAY_CTRL (40_register_read.md R125). -/
def execRdPlayCtrl (s : State) : Host.Outcome State Fault Refusal := .next (readReg .playCtrl s)

/-- RD PLAY_ADDR (40_register_read.md R126). -/
def execRdPlayAddr (s : State) : Host.Outcome State Fault Refusal := .next (readReg .playAddr s)

/-- RD PLAY_REMAINING (40_register_read.md R127). -/
def execRdPlayRemaining (s : State) : Host.Outcome State Fault Refusal := .next (readReg .playRemaining s)

/-- RD CAP_CTRL (40_register_read.md R128). -/
def execRdCapCtrl (s : State) : Host.Outcome State Fault Refusal := .next (readReg .capCtrl s)

/-- RD CAP_ADDR (40_register_read.md R129). -/
def execRdCapAddr (s : State) : Host.Outcome State Fault Refusal := .next (readReg .capAddr s)

/-- RD CAP_REMAINING (40_register_read.md R130). -/
def execRdCapRemaining (s : State) : Host.Outcome State Fault Refusal := .next (readReg .capRemaining s)

/-- RD #7 (40_register_read.md R131): data 0 whatever `x[7]` holds, and a diagnostic when
DIAG_ON_RESERVED. -/
def execRdReserved (s : State) : Host.Outcome State Fault Refusal :=
  .next (reservedDiag .unknownRead (returnData 0 s))

/-- RD #n, n at least 11 (40_register_read.md R132): data 0 and one diagnostic. -/
def execRdOutOfRange (index : Nat) (s : State) : Host.Outcome State Fault Refusal :=
  .next (diag .unknownRead index (returnData 0 s))

end Sys2Proof.Machine
end

