-- ==== Sys2Proof/Machine/WriteRegs.lean ====
section
/-! DEFINITION. The register write operations (41_register_write.md). -/

namespace Sys2Proof.Machine

/-- The codec line a value written to CODEC_CTRL pulses, if any (41_register_write.md R141): the direction
is taken from the written value. -/
def codecPulse (value : Word) (s : State) : State :=
  if rqen value then pulse (if dir value then .codecRequest else .codecReply) s else s

/-- WR CODEC_CTRL (41_register_write.md R141). -/
def execWrCodecCtrl (value : Word) (s : State) : Host.Outcome State Fault Refusal :=
  .next (storeReg .codecCtrl (codecStored value) (codecPulse value s))

/-- WR CODEC_ADDR (41_register_write.md R142). -/
def execWrCodecAddr (value : Word) (s : State) : Host.Outcome State Fault Refusal :=
  .next (storeReg .codecAddr value s)

/-- WR CODEC_DATA_OUT (41_register_write.md R143). -/
def execWrCodecDataOut (value : Word) (s : State) : Host.Outcome State Fault Refusal :=
  .next (storeReg .codecDataOut value s)

/-- WR CODEC_DATA_IN (41_register_write.md R144). -/
def execWrCodecDataIn (value : Word) (s : State) : Host.Outcome State Fault Refusal :=
  .next (storeReg .codecDataIn value s)

/-- WR PLAY_CTRL (41_register_write.md R145): store, then re-evaluate. -/
def execWrPlayCtrl (value : Word) (s : State) : Host.Outcome State Fault Refusal :=
  .next (reevaluate (storeReg .playCtrl value s))

/-- WR PLAY_ADDR (41_register_write.md R146). -/
def execWrPlayAddr (value : Word) (s : State) : Host.Outcome State Fault Refusal :=
  .next (storeReg .playAddr value s)

/-- WR PLAY_REMAINING (41_register_write.md R147). -/
def execWrPlayRemaining (value : Word) (s : State) : Host.Outcome State Fault Refusal :=
  .next (storeReg .playRemaining value s)

/-- WR CAP_CTRL (41_register_write.md R149): store, then re-evaluate. -/
def execWrCapCtrl (value : Word) (s : State) : Host.Outcome State Fault Refusal :=
  .next (reevaluate (storeReg .capCtrl value s))

/-- WR CAP_ADDR (41_register_write.md R150). -/
def execWrCapAddr (value : Word) (s : State) : Host.Outcome State Fault Refusal :=
  .next (storeReg .capAddr value s)

/-- WR CAP_REMAINING (41_register_write.md R151). -/
def execWrCapRemaining (value : Word) (s : State) : Host.Outcome State Fault Refusal :=
  .next (storeReg .capRemaining value s)

/-- WR #7 (41_register_write.md R148): the value is ignored, `x[7]` keeps its word. -/
def execWrReserved (_value : Word) (s : State) : Host.Outcome State Fault Refusal :=
  .next (reservedDiag .unknownWrite s)

/-- WR #n, n at least 11 (41_register_write.md R152): the value is ignored, one diagnostic. -/
def execWrOutOfRange (index : Nat) (_value : Word) (s : State) : Host.Outcome State Fault Refusal :=
  .next (diag .unknownWrite index s)

end Sys2Proof.Machine
end

