-- ==== Sys2Proof/Machine/Dispatch.lean ====
section
/-! DEFINITION. One arm per operation, each one call of its meaning. -/

namespace Sys2Proof.Machine

/-- The meaning of an operation. -/
def exec (i : Instr) (s : State) : Host.Outcome State Fault Refusal :=
  match i with
  | .rdCodecCtrl => Sys2Proof.Machine.execRdCodecCtrl s
  | .rdCodecAddr => Sys2Proof.Machine.execRdCodecAddr s
  | .rdCodecDataOut => Sys2Proof.Machine.execRdCodecDataOut s
  | .rdCodecDataIn => Sys2Proof.Machine.execRdCodecDataIn s
  | .rdPlayCtrl => Sys2Proof.Machine.execRdPlayCtrl s
  | .rdPlayAddr => Sys2Proof.Machine.execRdPlayAddr s
  | .rdPlayRemaining => Sys2Proof.Machine.execRdPlayRemaining s
  | .rdCapCtrl => Sys2Proof.Machine.execRdCapCtrl s
  | .rdCapAddr => Sys2Proof.Machine.execRdCapAddr s
  | .rdCapRemaining => Sys2Proof.Machine.execRdCapRemaining s
  | .rdReserved => Sys2Proof.Machine.execRdReserved s
  | .rdOutOfRange index => Sys2Proof.Machine.execRdOutOfRange index s
  | .wrCodecCtrl value => Sys2Proof.Machine.execWrCodecCtrl value s
  | .wrCodecAddr value => Sys2Proof.Machine.execWrCodecAddr value s
  | .wrCodecDataOut value => Sys2Proof.Machine.execWrCodecDataOut value s
  | .wrCodecDataIn value => Sys2Proof.Machine.execWrCodecDataIn value s
  | .wrPlayCtrl value => Sys2Proof.Machine.execWrPlayCtrl value s
  | .wrPlayAddr value => Sys2Proof.Machine.execWrPlayAddr value s
  | .wrPlayRemaining value => Sys2Proof.Machine.execWrPlayRemaining value s
  | .wrCapCtrl value => Sys2Proof.Machine.execWrCapCtrl value s
  | .wrCapAddr value => Sys2Proof.Machine.execWrCapAddr value s
  | .wrCapRemaining value => Sys2Proof.Machine.execWrCapRemaining value s
  | .wrReserved value => Sys2Proof.Machine.execWrReserved value s
  | .wrOutOfRange index value => Sys2Proof.Machine.execWrOutOfRange index value s
  | .psvc budget => Sys2Proof.Machine.execPsvc budget s
  | .csvc budget => Sys2Proof.Machine.execCsvc budget s
  | .rst => Sys2Proof.Machine.execRst s
  | .rstr w => Sys2Proof.Machine.execRstr w s

end Sys2Proof.Machine
end

