-- ==== Sys2Proof/Machine/Fetch.lean ====
section
/-! DEFINITION. What a step does around an operation: whether an agent may issue it, and how the host's
table word is placed as the next input. -/

namespace Sys2Proof.Machine

/-- The channel an operation services, if it is a service operation. -/
def servicedChannel : Instr → Option Channel
  | .psvc _ => some .play
  | .csvc _ => some .cap
  | .rdCodecCtrl | .rdCodecAddr | .rdCodecDataOut | .rdCodecDataIn | .rdPlayCtrl | .rdPlayAddr
  | .rdPlayRemaining | .rdCapCtrl | .rdCapAddr | .rdCapRemaining | .rdReserved | .rdOutOfRange _
  | .wrCodecCtrl _ | .wrCodecAddr _ | .wrCodecDataOut _ | .wrCodecDataIn _ | .wrPlayCtrl _
  | .wrPlayAddr _ | .wrPlayRemaining _ | .wrCapCtrl _ | .wrCapAddr _ | .wrCapRemaining _
  | .wrReserved _ | .wrOutOfRange _ _ | .rst | .rstr _ => none

/-- Why no agent issues the descriptor's operation now, if none does: an index or a budget outside its domain
(00_scope.md R12, R13), or a service event to a channel whose stream flag is 0 without SERVICE_WHEN_INACTIVE
(42_playback_dma.md R178, 43_capture_dma.md R198; log entry 11). -/
def issueRefusal (d : Descriptor) (i : Instr) (s : State) : Option Refusal :=
  if d.argFits s.cfg = false then some .argOutsideDomain else
  match servicedChannel i with
  | some ch =>
    if s.cfg.serviceWhenInactive ∨ streamActive ch s then none else some (.serviceWhileInactive ch)
  | none => none

/-- Whether a descriptor's kind is a service kind (30_encoding.md R93). -/
def isServiceKind (d : Descriptor) : Bool := d.kind == 2 || d.kind == 3

/-- The parameters under which the agents may issue a descriptor of the 35-bit form at once: an index and a
budget of at least 32 bits, and for a service kind SERVICE_WHEN_INACTIVE (log entry 12). -/
def admitting (d : Descriptor) (cfg : Config) : Config :=
  { cfg with
    indexBits := max cfg.indexBits 32
    budgetBits := max cfg.budgetBits 32
    serviceWhenInactive := cfg.serviceWhenInactive || isServiceKind d }

/-- Place a descriptor as the next input, so that the agents may issue it at once (log entry 12). -/
def placeNext (d : Descriptor) (s : State) : State :=
  { s with pending := .op d :: s.pending, cfg := admitting d s.cfg }

end Sys2Proof.Machine
end

