-- ==== Sys2Proof/Machine/Step.lean ====
section
/-! DEFINITION. One step: the next input of the outside agents, taken whole. -/

namespace Sys2Proof.Machine

/-- One step. The block has no step of its own (00_scope.md R5): with nothing pending it stands still
(log entry 1); a host store changes one byte of host memory; an operation is decoded and executed as one
atomic transition (00_scope.md R6). -/
def step (s : State) : Host.Outcome State Fault Refusal :=
  match s.pending with
  | [] => .next s
  | .hostStore addr value :: rest => .next (hostStore addr value { s with pending := rest })
  | .op d :: rest =>
    match decode d with
    | .error e => .refused (.badDescriptor e)
    | .ok i =>
      match issueRefusal d i s with
      | some r => .refused r
      | none => exec i { s with pending := rest }

/-- The state in which the very next step runs the table word's operation (log entry 12). -/
def State.withFetchWord (s : State) (nbits w : Nat) : State := placeNext (tableDescriptor nbits w) s

end Sys2Proof.Machine
end

