-- ==== Sys2Proof/Machine/Pseudo.lean ====
section
/-! DEFINITION. The pseudo-operations of 30_encoding.md R107: each is a sequence of operations. -/

namespace Sys2Proof.Machine

/-- ARM_PLAY addr, n (30_encoding.md R107). -/
def armPlay (addr n : Word) : List Instr := [.wrPlayAddr addr, .wrPlayRemaining n, .wrPlayCtrl 1]

/-- ARM_CAP addr, n (30_encoding.md R107). -/
def armCap (addr n : Word) : List Instr := [.wrCapAddr addr, .wrCapRemaining n, .wrCapCtrl 1]

/-- STOP_PLAY (30_encoding.md R107). -/
def stopPlay : List Instr := [.wrPlayCtrl 0]

/-- STOP_CAP (30_encoding.md R107). -/
def stopCap : List Instr := [.wrCapCtrl 0]

/-- CODEC_REQ (30_encoding.md R107). -/
def codecReq : List Instr := [.wrCodecCtrl 3]

/-- CODEC_RPL (30_encoding.md R107). -/
def codecRpl : List Instr := [.wrCodecCtrl 1]

end Sys2Proof.Machine
end

