-- ==== Sys2Proof/Safety.lean ====
section
/-! DEFINITION. The words claims are stated in: the invariants of 10_state.md, the channel states of
41_register_write.md R154, which operation may write which word, what a trace says, sequences of
operations, and the configurations in which no burst is refused. -/

namespace Sys2Proof.Machine

/-- Each stream flag is its channel's enable bit (10_state.md R48). -/
abbrev FlagsMatch (s : State) : Prop :=
  s.playActive = s.regs.playCtrl.getLsbD 0 ∧ s.capActive = s.regs.capCtrl.getLsbD 0

/-- Host memory is in canonical form. -/
abbrev MemCanonical (s : State) : Prop := s.mem.wf = true

/-- The stored request-enable bit is 0 (10_state.md R32). -/
abbrev RequestBitClear (s : State) : Prop := s.regs.codecCtrl.getLsbD 0 = false

/-- The reserved word is 0 (10_state.md R39). -/
abbrev ReservedZero (s : State) : Prop := s.regs.reserved = 0

/-- No parameter makes a burst refused: BURST_WRAP is `wrap`, DMA cannot reach the register window, no
read has side effects. The spec's defaults are such a configuration (log entry 10). -/
abbrev BurstsAllowed (cfg : Config) : Prop :=
  cfg.burstWrap = .wrap ∧ cfg.windowBase = none ∧ cfg.readSideEffects = []

/-- No burst that a service of the channel with this budget may make is refused: at every distance from the
cursor a burst can start at, every size it can have. Under any parameters (log entry 10). -/
abbrev BurstsClear (ch : Channel) (budget : Nat) (s : State) : Prop :=
  ∀ d < want ch budget s, ∀ k ≤ chunkSize s.cfg (want ch budget s) d,
    burstRefusal s.cfg ch (localCursor (s.regs.get ch.addr) d) k = none

/-- The four states of a channel (41_register_write.md R154). -/
inductive ChannelState where
  | idleDrained
  | loaded
  | armed
  | enabledDrained
  deriving DecidableEq, Repr

/-- A channel's state, a function of its enable bit and its counter (41_register_write.md R154). -/
def channelState (ch : Channel) (s : State) : ChannelState :=
  if (s.regs.get ch.ctrl).getLsbD 0 then
    if s.regs.get ch.remaining = 0 then .enabledDrained else .armed
  else
    if s.regs.get ch.remaining = 0 then .idleDrained else .loaded

/-- The words an operation may write ("State written" of the rules of 40_register_read.md to
44_lifecycle.md). -/
def mayWrite : Instr → List Slot
  | .wrCodecCtrl _ => [.codecCtrl]
  | .wrCodecAddr _ => [.codecAddr]
  | .wrCodecDataOut _ => [.codecDataOut]
  | .wrCodecDataIn _ => [.codecDataIn]
  | .wrPlayCtrl _ => [.playCtrl]
  | .wrPlayAddr _ => [.playAddr]
  | .wrPlayRemaining _ => [.playRemaining]
  | .wrCapCtrl _ => [.capCtrl]
  | .wrCapAddr _ => [.capAddr]
  | .wrCapRemaining _ => [.capRemaining]
  | .psvc _ => [.playAddr, .playRemaining]
  | .csvc _ => [.capAddr, .capRemaining]
  | .rst | .rstr _ =>
    [.codecCtrl, .codecAddr, .codecDataOut, .codecDataIn, .playCtrl, .playAddr, .playRemaining, .reserved,
     .capCtrl, .capAddr, .capRemaining]
  | .rdCodecCtrl | .rdCodecAddr | .rdCodecDataOut | .rdCodecDataIn | .rdPlayCtrl | .rdPlayAddr
  | .rdPlayRemaining | .rdCapCtrl | .rdCapAddr | .rdCapRemaining | .rdReserved | .rdOutOfRange _
  | .wrReserved _ | .wrOutOfRange _ _ => []

/-- The line an event pulses, if it is a pulse. -/
def Event.line : Event → Option Line
  | .pulse l => some l
  | .readData _ | .diag _ _ | .offer _ _ _ | .pull _ _ => none

/-- The pulses of a trace, in order (60_exceptions.md R235). -/
def pulses (tr : List Event) : List Line := tr.filterMap Event.line

/-- How many times a line was pulsed. -/
def pulseCount (l : Line) (tr : List Event) : Nat := (pulses tr).count l

/-- The bytes of an event that the sink consumed: the first `taken` of an offer (00_scope.md R19). -/
def Event.sunk : Event → List Byte
  | .offer _ bytes taken => bytes.take taken
  | .readData _ | .pulse _ | .diag _ _ | .pull _ _ => []

/-- The bytes of an event that the source produced (00_scope.md R20). -/
def Event.captured : Event → List Byte
  | .pull _ bytes => bytes
  | .readData _ | .pulse _ | .diag _ _ | .offer _ _ _ => []

/-- All the sink consumed, in order (42_playback_dma.md R176). -/
def sunk (tr : List Event) : List Byte := tr.flatMap Event.sunk

/-- All the source produced, in order (43_capture_dma.md R196). -/
def captured (tr : List Event) : List Byte := tr.flatMap Event.captured

/-- A sequence of operations, one after the other (30_encoding.md R106). -/
def runAll : List Instr → State → Host.Outcome State Fault Refusal
  | [], s => .next s
  | i :: is, s =>
    match exec i s with
    | .next t => runAll is t
    | .fault r => .fault r
    | .refused r => .refused r

/-- A safe run of `n` steps: none of them is refused (no step can fault). -/
def SafeRun (n : Nat) (s : State) : Prop := ∃ t, Sys2Proof.core.run n s = .next t

end Sys2Proof.Machine
end

