-- ==== Sys2Proof/Certificates/Slice0/Obligations.lean ====
section
/-! DEFINITION. The statements about the machine that the provers are asked to settle, and the pseudocode of
the two service operations as iterations of one loop body, which two of the statements compare with. -/

open Sys2Proof Sys2Proof.Machine

namespace Sys2Proof.Pseudocode

/-- Where the `while` loop of 42_playback_dma.md R170 stands. -/
structure PlayLoop where
  done : Nat
  answers : List Nat
  offers : List Event
  stopped : Bool

/-- One iteration of the `while` loop of 42_playback_dma.md R170: nothing once it has ended. -/
def playIter (s : State) (want : Nat) (l : PlayLoop) : PlayLoop :=
  if l.stopped ∨ want ≤ l.done then l
  else
    let chunk := min (s.cfg.stagingBytes : Nat) (want - l.done)
    let cursor := s.regs.playAddr + BitVec.ofNat 32 l.done
    let buf := (List.range chunk).map fun k => s.mem.read ((cursor.toNat + k) % 2 ^ s.cfg.paddrBits)
    let a := min (l.answers.headD 0) chunk
    { done := l.done + a
      answers := l.answers.tail
      offers := l.offers ++ [.offer cursor buf a]
      stopped := a == 0 }

/-- The state PLAY_SERVICE leaves by the pseudocode of R170, for `want` bytes wanted. -/
def playResult (s : State) (want : Nat) : State :=
  if want = 0 then s
  else
    let l := (playIter s want)^[want] ⟨0, s.sinkAnswers, [], false⟩
    let left := s.regs.playRemaining - BitVec.ofNat 32 l.done
    { s with
      regs := { s.regs with
                playAddr := s.regs.playAddr + BitVec.ofNat 32 l.done
                playRemaining := left }
      sinkAnswers := l.answers
      trace := s.trace ++ l.offers ++
        (if s.regs.playCtrl.getLsbD 0 ∧ left = 0 then [.pulse .playDone] else []) }

/-- Where the `while` loop of 43_capture_dma.md R190 stands. -/
structure CapLoop where
  done : Nat
  mem : Memory
  answers : List (List Byte)
  pulls : List Event
  stopped : Bool

/-- One iteration of the `while` loop of 43_capture_dma.md R190: nothing once it has ended. -/
def capIter (s : State) (want : Nat) (l : CapLoop) : CapLoop :=
  if l.stopped ∨ want ≤ l.done then l
  else
    let chunk := min (s.cfg.stagingBytes : Nat) (want - l.done)
    let buf := (l.answers.headD []).take chunk
    let cursor := s.regs.capAddr + BitVec.ofNat 32 l.done
    { done := l.done + buf.length
      mem := buf.zipIdx.foldl
        (fun m bk => m.write ((cursor.toNat + bk.2) % 2 ^ s.cfg.paddrBits) bk.1) l.mem
      answers := l.answers.tail
      pulls := l.pulls ++ [.pull chunk buf]
      stopped := buf.length == 0 }

/-- The state CAP_SERVICE leaves by the pseudocode of R190, for `want` bytes wanted. -/
def capResult (s : State) (want : Nat) : State :=
  if want = 0 then s
  else
    let l := (capIter s want)^[want] ⟨0, s.mem, s.sourceAnswers, [], false⟩
    let left := s.regs.capRemaining - BitVec.ofNat 32 l.done
    { s with
      regs := { s.regs with
                capAddr := s.regs.capAddr + BitVec.ofNat 32 l.done
                capRemaining := left }
      mem := l.mem
      sourceAnswers := l.answers
      trace := s.trace ++ l.pulls ++
        (if s.regs.capCtrl.getLsbD 0 ∧ left = 0 then [.pulse .capDone] else []) }

/-- The burst of iteration `j` of the playback loop, as its cursor and its size, if that iteration is made. -/
def playBurst (s : State) (want j : Nat) : Option (Word × Nat) :=
  let l := (playIter s want)^[j] ⟨0, s.sinkAnswers, [], false⟩
  if l.stopped ∨ want ≤ l.done then none
  else some (s.regs.playAddr + BitVec.ofNat 32 l.done, min (s.cfg.stagingBytes : Nat) (want - l.done))

/-- The burst of iteration `j` of the capture loop, as its cursor and its size, if that iteration is made and
its pull is not empty. -/
def capBurst (s : State) (want j : Nat) : Option (Word × Nat) :=
  let l := (capIter s want)^[j] ⟨0, s.mem, s.sourceAnswers, [], false⟩
  let p := min (min (s.cfg.stagingBytes : Nat) (want - l.done)) (l.answers.headD []).length
  if l.stopped ∨ want ≤ l.done ∨ p = 0 then none
  else some (s.regs.capAddr + BitVec.ofNat 32 l.done, p)

/-- The address of byte `k` of a burst (20_memory.md R71). -/
def byteAddr (cfg : Config) (cursor : Word) (k : Nat) : Nat := (cursor.toNat + k) % 2 ^ cfg.paddrBits

/-- A burst of `n` bytes passes 2^32 where that has no meaning (20_memory.md R71). -/
def CrossesTop (cfg : Config) (cursor : Word) (n : Nat) : Prop :=
  cfg.burstWrap = .refuse ∧ 2 ^ 32 < cursor.toNat + n

/-- A burst of `n` bytes covers a byte of the register window of 44 bytes (20_memory.md R75). -/
def CoversWindow (cfg : Config) (cursor : Word) (n : Nat) : Prop :=
  ∃ base k, cfg.windowBase = some base ∧ k < n ∧ base ≤ byteAddr cfg cursor k ∧
    byteAddr cfg cursor k < base + 44

/-- A burst of `n` bytes covers an address with read side effects (20_memory.md R74). -/
def CoversSideEffects (cfg : Config) (cursor : Word) (n : Nat) : Prop :=
  ∃ r ∈ cfg.readSideEffects, ∃ k < n, r.base ≤ byteAddr cfg cursor k ∧
    byteAddr cfg cursor k < r.base + r.size

/-- The spec gives a read burst no meaning. -/
def ReadForbidden (cfg : Config) (cursor : Word) (n : Nat) : Prop :=
  CrossesTop cfg cursor n ∨ CoversWindow cfg cursor n ∨ CoversSideEffects cfg cursor n

/-- The spec gives a write burst no meaning: a write has no read side effects. -/
def WriteForbidden (cfg : Config) (cursor : Word) (n : Nat) : Prop :=
  CrossesTop cfg cursor n ∨ CoversWindow cfg cursor n

end Sys2Proof.Pseudocode

namespace Sys2Proof.Machine

/-- The size of an offer and the count taken of it, if the event is an offer. -/
def Event.offered : Event → Option (Nat × Nat)
  | .offer _ bytes taken => some (bytes.length, taken)
  | .readData _ | .pulse _ | .diag _ _ | .pull _ _ => none

/-- The size asked and the count produced of a pull, if the event is a pull. -/
def Event.pulled : Event → Option (Nat × Nat)
  | .pull asked bytes => some (asked, bytes.length)
  | .readData _ | .pulse _ | .diag _ _ | .offer _ _ _ => none

end Sys2Proof.Machine

/-! ### Encoding -/

/-- Words written out from the `match` column of the spec's table, and the payload each kind has
(30_encoding.md R92 to R94), decode to the operation they stand for. -/
def Obligations.TableWordsDecodeToTheirOperation : Prop :=
  decode (.ofH 0x000000000#35 []) = .ok .rdCodecCtrl ∧
  decode (.ofH 0x00000000A#35 []) = .ok .rdCapRemaining ∧
  decode (.ofH 0x000000007#35 []) = .ok .rdReserved ∧
  decode (.ofH 0x00000000B#35 []) = .ok (.rdOutOfRange 11) ∧
  decode (.ofH 0x0FFFFFFFF#35 []) = .ok (.rdOutOfRange 4294967295) ∧
  decode (.ofH 0x100000000#35 [3]) = .ok (.wrCodecCtrl 3) ∧
  decode (.ofH 0x100000004#35 [1]) = .ok (.wrPlayCtrl 1) ∧
  decode (.ofH 0x100000007#35 [0xDEADBEEF]) = .ok (.wrReserved 0xDEADBEEF) ∧
  decode (.ofH 0x100000010#35 [1]) = .ok (.wrOutOfRange 16 1) ∧
  decode (.ofH 0x200001770#35 []) = .ok (.psvc 6000) ∧
  decode (.ofH 0x300000010#35 []) = .ok (.csvc 16) ∧
  decode (.ofH 0x400000000#35 []) = .ok .rst ∧
  decode (.ofH 0x500000000#35 [0, 1, 2, 3, 4, 5, 6, 7, 8, 9, 10]) =
    .ok (.rstr ⟨0, 1, 2, 3, 4, 5, 6, 7, 8, 9, 10⟩)

/-- Decoding the encoding of a well-formed operation gives it back, every operand at every value; and so does
decoding its 35-bit `H`, wherever the `arg` has 32 bits. -/
def Obligations.DecodeOfEncodeIsTheOperation : Prop :=
  ∀ i : Instr, i.wf = true →
    decode (encode i) = .ok i ∧
    ((encode i).arg < 2 ^ 32 → decode (.ofH (encode i).h (encode i).payload) = .ok i)

/-- A descriptor that decodes spells one well-formed operation: encoding it gives the descriptor back, but
for the ignored `arg` of RESET and RESTORE (30_encoding.md R92). -/
def Obligations.EncodeOfDecodeIsTheDescriptor : Prop :=
  ∀ (d : Descriptor) (i : Instr), decode d = .ok i →
    i.wf = true ∧ (encode i).payload = d.payload ∧ (encode i).kind = d.kind ∧
    (d.kind.toNat < 4 → encode i = d)

/-- Every `H` of kind 0 to 5 matches exactly one row of the table once the two last rows are tried after the
exact ones, an `H` of kind 6 or 7 matches none, and the operation a descriptor decodes to is the one its row
names (30_encoding.md R94, R108). -/
def Obligations.DecoderAgreesWithTheOpcodeTable : Prop :=
  (∀ h : BitVec 35, (h.extractLsb' 32 3).toNat < 6 →
    ∃ r ∈ opcodeTable, lookupRow h = some r ∧ r.fits h = true ∧
      ∀ q ∈ opcodeTable, q.fits h = true → q ≠ r → q.last = true ∧ r.last = false) ∧
  (∀ h : BitVec 35, 6 ≤ (h.extractLsb' 32 3).toNat → lookupRow h = none) ∧
  (∀ (h : BitVec 35) (p : List Word) (i : Instr), decode (.ofH h p) = .ok i →
    (lookupRow h).map (fun r => r.mnemonic) = some i.mnemonic)

/-- Kinds 6 and 7 spell no operation, whatever stands in `arg` and payload (30_encoding.md R104). -/
def Obligations.UnassignedKindsAreRejected : Prop :=
  (∀ (arg : Nat) (p : List Word),
    decode ⟨6, arg, p⟩ = .error (.unassignedKind 6) ∧ decode ⟨7, arg, p⟩ = .error (.unassignedKind 7)) ∧
  ∀ (arg : BitVec 32) (p : List Word),
    decode (.ofH (header 6 arg) p) = .error (.unassignedKind 6) ∧
    decode (.ofH (header 7 arg) p) = .error (.unassignedKind 7)

/-- A platform access has a word index only when it moves a whole word at a multiple of 4, and then the
index is a quarter of the offset (20_memory.md R62, R63). -/
def Obligations.OnlyAlignedWordAccessesHaveAnIndex : Prop :=
  ∀ off width : Nat,
    (width = 4 → off % 4 = 0 → hostAccessIndex off width = some (off / 4)) ∧
    (width ≠ 4 ∨ off % 4 ≠ 0 → hostAccessIndex off width = none)

/-! ### Register reads -/

/-- RD of each of the ten named registers returns the stored word and changes nothing else
(40_register_read.md R121 to R130). -/
def Obligations.NamedRegisterReadsReturnTheStoredWord : Prop :=
  decode (.ofH 0x000000000#35 []) = .ok .rdCodecCtrl ∧ decode (.ofH 0x000000001#35 []) = .ok .rdCodecAddr ∧
  decode (.ofH 0x000000002#35 []) = .ok .rdCodecDataOut ∧ decode (.ofH 0x000000003#35 []) = .ok .rdCodecDataIn ∧
  decode (.ofH 0x000000004#35 []) = .ok .rdPlayCtrl ∧ decode (.ofH 0x000000005#35 []) = .ok .rdPlayAddr ∧
  decode (.ofH 0x000000006#35 []) = .ok .rdPlayRemaining ∧ decode (.ofH 0x000000008#35 []) = .ok .rdCapCtrl ∧
  decode (.ofH 0x000000009#35 []) = .ok .rdCapAddr ∧ decode (.ofH 0x00000000A#35 []) = .ok .rdCapRemaining ∧
  ∀ s : State,
    exec .rdCodecCtrl s = .next { s with trace := s.trace ++ [.readData s.regs.codecCtrl] } ∧
    exec .rdCodecAddr s = .next { s with trace := s.trace ++ [.readData s.regs.codecAddr] } ∧
    exec .rdCodecDataOut s = .next { s with trace := s.trace ++ [.readData s.regs.codecDataOut] } ∧
    exec .rdCodecDataIn s = .next { s with trace := s.trace ++ [.readData s.regs.codecDataIn] } ∧
    exec .rdPlayCtrl s = .next { s with trace := s.trace ++ [.readData s.regs.playCtrl] } ∧
    exec .rdPlayAddr s = .next { s with trace := s.trace ++ [.readData s.regs.playAddr] } ∧
    exec .rdPlayRemaining s = .next { s with trace := s.trace ++ [.readData s.regs.playRemaining] } ∧
    exec .rdCapCtrl s = .next { s with trace := s.trace ++ [.readData s.regs.capCtrl] } ∧
    exec .rdCapAddr s = .next { s with trace := s.trace ++ [.readData s.regs.capAddr] } ∧
    exec .rdCapRemaining s = .next { s with trace := s.trace ++ [.readData s.regs.capRemaining] }

/-- An access at an index of 11 or more completes: a read returns 0, a write is dropped; each emits exactly one
diagnostic with its index and changes nothing else (40_register_read.md R132, 41_register_write.md R152). -/
def Obligations.OutOfRangeAccessesOnlyEmitADiagnostic : Prop :=
  (∀ (index : Nat) (v : Word), 11 ≤ index →
    decode ⟨0, index, []⟩ = .ok (.rdOutOfRange index) ∧
    decode ⟨1, index, [v]⟩ = .ok (.wrOutOfRange index v)) ∧
  ∀ (index : Nat) (v : Word) (s : State),
    exec (.rdOutOfRange index) s =
      .next { s with trace := s.trace ++ [.readData 0, .diag .unknownRead index] } ∧
    exec (.wrOutOfRange index v) s = .next { s with trace := s.trace ++ [.diag .unknownWrite index] }

/-- The common contract of REG_READ, for every index: the stored word of a named register, 0 and one diagnostic
out of range; no effect at any index but the data and the diagnostic (40_register_read.md R120). -/
def Obligations.RegReadContract : Prop :=
  ∀ (index : Nat) (s : State),
    ∃ (v : Word) (unknown : List Event),
      exec (Instr.readAt index) s = .next { s with trace := s.trace ++ .readData v :: unknown } ∧
      pulses unknown = [] ∧ unknown.filterMap Event.offered = [] ∧
      unknown.filterMap Event.pulled = [] ∧
      (∀ r, Slot.ofIndex index = some r → r ≠ .reserved → v = s.regs.get r ∧ unknown = []) ∧
      (11 ≤ index → v = 0 ∧ unknown = [.diag .unknownRead index])

/-! ### Register writes -/

/-- WR CODEC_CTRL: exactly one codec line by the written direction when the written request-enable bit is
set, none otherwise; the word is stored with bit 0 cleared; nothing else changes (41_register_write.md R141). -/
def Obligations.CodecCtrlWritePulsesAndSelfClears : Prop :=
  (∀ v : Word, decode (.ofH 0x100000000#35 [v]) = .ok (.wrCodecCtrl v)) ∧
  ∀ (v : Word) (s : State), exec (.wrCodecCtrl v) s =
    .next { s with
            regs := { s.regs with codecCtrl := v &&& 0xFFFFFFFE#32 }
            trace := s.trace ++
              (if v.getLsbD 0 then
                (if v.getLsbD 1 then [.pulse .codecRequest] else [.pulse .codecReply])
              else []) }

/-- WR CODEC_ADDR, CODEC_DATA_OUT and CODEC_DATA_IN store the value verbatim and do nothing else
(41_register_write.md R142, R143, R144). -/
def Obligations.OpaqueCodecWritesStoreVerbatim : Prop :=
  (∀ v : Word, decode (.ofH 0x100000001#35 [v]) = .ok (.wrCodecAddr v) ∧
    decode (.ofH 0x100000002#35 [v]) = .ok (.wrCodecDataOut v) ∧
    decode (.ofH 0x100000003#35 [v]) = .ok (.wrCodecDataIn v)) ∧
  ∀ (v : Word) (s : State),
    exec (.wrCodecAddr v) s = .next { s with regs := { s.regs with codecAddr := v } } ∧
    exec (.wrCodecDataOut v) s = .next { s with regs := { s.regs with codecDataOut := v } } ∧
    exec (.wrCodecDataIn v) s = .next { s with regs := { s.regs with codecDataIn := v } }

/-- WR PLAY_CTRL and WR CAP_CTRL store the value verbatim and re-evaluate both stream flags, which leaves the
other channel's flag as it was wherever the flags match; no pulse, no transfer (41_register_write.md R145,
R149). That a re-evaluation sets both flags each time, also where they do not match, is the spec's own decision
D25 (R153; log entry 18). -/
def Obligations.DmaCtrlWritesStoreAndReevaluate : Prop :=
  (∀ v : Word, decode (.ofH 0x100000004#35 [v]) = .ok (.wrPlayCtrl v) ∧
    decode (.ofH 0x100000008#35 [v]) = .ok (.wrCapCtrl v)) ∧
  ∀ (v : Word) (s : State),
    exec (.wrPlayCtrl v) s =
      .next { s with
              regs := { s.regs with playCtrl := v }
              playActive := v.getLsbD 0
              capActive := s.regs.capCtrl.getLsbD 0 } ∧
    exec (.wrCapCtrl v) s =
      .next { s with
              regs := { s.regs with capCtrl := v }
              playActive := s.regs.playCtrl.getLsbD 0
              capActive := v.getLsbD 0 } ∧
    (FlagsMatch s →
      exec (.wrPlayCtrl v) s =
        .next { s with regs := { s.regs with playCtrl := v }, playActive := v.getLsbD 0 } ∧
      exec (.wrCapCtrl v) s =
        .next { s with regs := { s.regs with capCtrl := v }, capActive := v.getLsbD 0 })

/-- WR of a cursor or a counter stores the value verbatim and does nothing else: no pulse when the counter
becomes 0, no latch (41_register_write.md R146, R147, R150, R151). -/
def Obligations.CursorAndCounterWritesStoreVerbatim : Prop :=
  (∀ v : Word, decode (.ofH 0x100000005#35 [v]) = .ok (.wrPlayAddr v) ∧
    decode (.ofH 0x100000006#35 [v]) = .ok (.wrPlayRemaining v) ∧
    decode (.ofH 0x100000009#35 [v]) = .ok (.wrCapAddr v) ∧
    decode (.ofH 0x10000000A#35 [v]) = .ok (.wrCapRemaining v)) ∧
  ∀ (v : Word) (s : State),
    exec (.wrPlayAddr v) s = .next { s with regs := { s.regs with playAddr := v } } ∧
    exec (.wrPlayRemaining v) s = .next { s with regs := { s.regs with playRemaining := v } } ∧
    exec (.wrCapAddr v) s = .next { s with regs := { s.regs with capAddr := v } } ∧
    exec (.wrCapRemaining v) s = .next { s with regs := { s.regs with capRemaining := v } }

/-- The reserved slot: a read returns 0 whatever `x[7]` holds, a write changes no word, `x[7]` included; each
emits one diagnostic when DIAG_ON_RESERVED and does nothing else (40_register_read.md R131,
41_register_write.md R148; the spec's own decisions D1 and D2, log entry 8). -/
def Obligations.ReservedSlotReadsZeroAndIgnoresWrites : Prop :=
  decode (.ofH 0x000000007#35 []) = .ok .rdReserved ∧
  (∀ v : Word, decode (.ofH 0x100000007#35 [v]) = .ok (.wrReserved v)) ∧
  ∀ (v : Word) (s : State),
    exec .rdReserved s =
      .next { s with
              trace := s.trace ++ .readData 0 ::
                (if s.cfg.diagOnReserved then [.diag .unknownRead 7] else []) } ∧
    exec (.wrReserved v) s =
      .next { s with
              trace := s.trace ++ (if s.cfg.diagOnReserved then [.diag .unknownWrite 7] else []) }

/-- A write touches no word but that of its index, and neither host memory nor the sink nor the source
(41_register_write.md R140). -/
def Obligations.RegWriteTouchesOnlyItsWord : Prop :=
  ∀ (index : Nat) (v : Word) (s : State), ∃ t, exec (Instr.writeAt index v) s = .next t ∧
    (∀ r : Slot, r.index ≠ index → t.regs.get r = s.regs.get r) ∧
    (∀ a, t.mem.read a = s.mem.read a) ∧ t.sinkAnswers = s.sinkAnswers ∧
    t.sourceAnswers = s.sourceAnswers ∧ sunk t.trace = sunk s.trace ∧
    captured t.trace = captured s.trace

/-- The read-back law: what a read returns right after a write of the same index (41_register_write.md
R156). -/
def Obligations.WriteThenReadReturnsTheStoredValue : Prop :=
  ∀ (index : Nat) (v : Word) (s : State), ∃ (t u : State) (es : List Event),
    exec (Instr.writeAt index v) s = .next t ∧ exec (Instr.readAt index) t = .next u ∧
    u.trace = t.trace ++ .readData
      (if index = 0 then v &&& 0xFFFFFFFE#32
       else if index = 7 ∨ 11 ≤ index then 0 else v) :: es

/-- Back-to-back commands pulse once each: the block keeps no pending state (41_register_write.md R155,
60_exceptions.md R236). -/
def Obligations.EveryCodecCommandPulses : Prop :=
  ∀ (n : Nat) (v : Word) (s : State), v.getLsbD 0 = true → ∃ t,
    runAll (List.replicate n (.wrCodecCtrl v)) s = .next t ∧
    pulses t.trace =
      pulses s.trace ++ List.replicate n (if v.getLsbD 1 then .codecRequest else .codecReply)

/-! ### Service operations -/

/-- PSVC does what the pseudocode of 42_playback_dma.md R170 says, its loop run at most `want` times, under any
parameters, wherever no burst it makes is one the spec gives no meaning (20_memory.md R71, R74, R75; the
parameters of the latter two are the model's, log entry 10). -/
def Obligations.PlayServiceFollowsThePseudocode : Prop :=
  (∀ b : Nat, decode ⟨2, b, []⟩ = .ok (.psvc b)) ∧
  ∀ (b : Nat) (s : State),
    let want := min s.regs.playRemaining.toNat b
    (∀ j cursor n, Pseudocode.playBurst s want j = some (cursor, n) →
      ¬ Pseudocode.ReadForbidden s.cfg cursor n) →
    exec (.psvc b) s = .next (Pseudocode.playResult s want)

/-- CSVC does what the pseudocode of 43_capture_dma.md R190 says, its loop run at most `want` times, under any
parameters, wherever no burst it makes is one the spec gives no meaning (20_memory.md R71, R75; the parameter
of the latter is the model's, log entry 10). -/
def Obligations.CaptureServiceFollowsThePseudocode : Prop :=
  (∀ b : Nat, decode ⟨3, b, []⟩ = .ok (.csvc b)) ∧
  ∀ (b : Nat) (s : State),
    let want := min s.regs.capRemaining.toNat b
    (∀ j cursor n, Pseudocode.capBurst s want j = some (cursor, n) →
      ¬ Pseudocode.WriteForbidden s.cfg cursor n) →
    exec (.csvc b) s = .next (Pseudocode.capResult s want)

/-- The budget enters a service operation only through `want = min(REMAINING, budget)`: with nothing wanted
the operation returns at once (no memory access, no exchange, no register, no pulse), and a budget above
REMAINING acts exactly like a budget equal to it; this in every configuration (30_encoding.md R98,
42_playback_dma.md R171, 43_capture_dma.md R191). -/
def Obligations.BudgetEntersOnlyThroughWant : Prop :=
  ∀ (b : Nat) (s : State),
    (min s.regs.playRemaining.toNat b = 0 → exec (.psvc b) s = .next s) ∧
    (min s.regs.capRemaining.toNat b = 0 → exec (.csvc b) s = .next s) ∧
    (s.regs.playRemaining.toNat ≤ b → exec (.psvc b) s = exec (.psvc s.regs.playRemaining.toNat) s) ∧
    (s.regs.capRemaining.toNat ≤ b → exec (.csvc b) s = exec (.csvc s.regs.capRemaining.toNat) s)

/-- The frame of PSVC in every configuration: only PLAY_ADDR, PLAY_REMAINING, the sink's answers and the
trace change; every byte of host memory reads as before; the two registers move by the same amount, at most
`want` (42_playback_dma.md R170, R173; 20_memory.md R70). -/
def Obligations.PlayServiceFrame : Prop :=
  ∀ (b : Nat) (s t : State), exec (.psvc b) s = .next t →
    t = { s with
          regs := { s.regs with
                    playAddr := t.regs.playAddr
                    playRemaining := t.regs.playRemaining }
          sinkAnswers := t.sinkAnswers
          trace := t.trace } ∧
    (∀ a, t.mem.read a = s.mem.read a) ∧
    ∃ n ≤ min s.regs.playRemaining.toNat b,
      t.regs.playAddr = s.regs.playAddr + BitVec.ofNat 32 n ∧
      t.regs.playRemaining.toNat = s.regs.playRemaining.toNat - n

/-- The frame of CSVC in every configuration: only CAP_ADDR, CAP_REMAINING, host memory, the source's bursts
and the trace change, and every address that is not one of the `n` bytes stored from the cursor on reads as
before (43_capture_dma.md R190, R193, R195(j)). -/
def Obligations.CaptureServiceFrame : Prop :=
  ∀ (b : Nat) (s t : State), MemCanonical s → exec (.csvc b) s = .next t →
    t = { s with
          regs := { s.regs with
                    capAddr := t.regs.capAddr
                    capRemaining := t.regs.capRemaining }
          mem := t.mem
          sourceAnswers := t.sourceAnswers
          trace := t.trace } ∧
    ∃ n ≤ min s.regs.capRemaining.toNat b,
      t.regs.capAddr = s.regs.capAddr + BitVec.ofNat 32 n ∧
      t.regs.capRemaining.toNat = s.regs.capRemaining.toNat - n ∧
      ∀ a, (∀ d k, d + k < n → physAddr s.cfg (localCursor s.regs.capAddr d) k ≠ a) →
        t.mem.read a = s.mem.read a

/-- What the sink receives over any sequence of playback services: the contiguous bytes from the cursor on,
in ascending order, each once, as many as REMAINING went down by (42_playback_dma.md R176), for an address
width of at most 32 bits. -/
def Obligations.SinkReceivesTheContiguousBytes : Prop :=
  ∀ (bs : List Nat) (s t : State), s.cfg.paddrBits ≤ 32 →
    runAll (bs.map .psvc) s = .next t →
    t.regs.playAddr = s.regs.playAddr + (s.regs.playRemaining - t.regs.playRemaining) ∧
    sunk t.trace = sunk s.trace ++
      (List.range (s.regs.playRemaining.toNat - t.regs.playRemaining.toNat)).map fun k =>
        s.mem.read ((s.regs.playAddr.toNat + k) % 2 ^ s.cfg.paddrBits)

/-- What host memory receives over any sequence of capture services: the bytes the source produced, in
stream order, contiguous from the cursor on, and no other address is written (43_capture_dma.md R196), for
an address width of at most 32 bits that holds them without overlap. -/
def Obligations.MemoryReceivesTheStreamContiguously : Prop :=
  ∀ (bs : List Nat) (s t : State), MemCanonical s → s.cfg.paddrBits ≤ 32 →
    s.regs.capRemaining.toNat ≤ 2 ^ s.cfg.paddrBits →
    runAll (bs.map .csvc) s = .next t →
    ∃ stream : List Byte, captured t.trace = captured s.trace ++ stream ∧
      stream.length = s.regs.capRemaining.toNat - t.regs.capRemaining.toNat ∧
      t.regs.capAddr = s.regs.capAddr + (s.regs.capRemaining - t.regs.capRemaining) ∧
      (∀ k (hk : k < stream.length),
        t.mem.read ((s.regs.capAddr.toNat + k) % 2 ^ s.cfg.paddrBits) = stream[k]) ∧
      (∀ a, (∀ k, k < stream.length → (s.regs.capAddr.toNat + k) % 2 ^ s.cfg.paddrBits ≠ a) →
        t.mem.read a = s.mem.read a)

/-- The bounds of the playback loop (42_playback_dma.md R177; 20_memory.md R67): at most `want` offers, at
least `done / STAGING_BYTES` of them, each of 1 to STAGING_BYTES bytes, and between `done` and `done` plus
STAGING_BYTES for each short or zero answer bytes read. -/
def Obligations.PlaybackLoopBounds : Prop :=
  ∀ (b : Nat) (s t : State), exec (.psvc b) s = .next t →
    ∃ es : List Event, t.trace = s.trace ++ es ∧
      let offers := es.filterMap Event.offered
      let done := s.regs.playRemaining.toNat - t.regs.playRemaining.toNat
      let short := (offers.filter fun o => decide (o.2 < o.1)).length
      let read := (offers.map fun o => o.1).sum
      (∀ o ∈ offers, 1 ≤ o.1 ∧ o.1 ≤ (s.cfg.stagingBytes : Nat) ∧ o.2 ≤ o.1) ∧
      offers.length ≤ min s.regs.playRemaining.toNat b ∧
      done ≤ offers.length * (s.cfg.stagingBytes : Nat) ∧
      done ≤ read ∧ read ≤ done + short * (s.cfg.stagingBytes : Nat)

/-- The bounds of the capture loop (43_capture_dma.md R197): at most `want` pulls, at least
`done / STAGING_BYTES` of them, none asking for more than STAGING_BYTES, and as many bytes kept as produced. -/
def Obligations.CaptureLoopBounds : Prop :=
  ∀ (b : Nat) (s t : State), exec (.csvc b) s = .next t →
    ∃ es : List Event, t.trace = s.trace ++ es ∧
      let pulls := es.filterMap Event.pulled
      let done := s.regs.capRemaining.toNat - t.regs.capRemaining.toNat
      (∀ p ∈ pulls, 1 ≤ p.1 ∧ p.1 ≤ (s.cfg.stagingBytes : Nat) ∧ p.2 ≤ p.1) ∧
      pulls.length ≤ min s.regs.capRemaining.toNat b ∧
      done ≤ pulls.length * (s.cfg.stagingBytes : Nat) ∧
      (pulls.map fun p => p.2).sum = done

/-- A service operation with a budget and bytes left makes progress whenever the first answer is not empty,
however small the budget, under any parameters that refuse none of its bursts (42_playback_dma.md R175(c),
20_memory.md R66). -/
def Obligations.NonEmptyAnswerMakesProgress : Prop :=
  ∀ (b : Nat) (s : State), b ≠ 0 →
    (BurstsClear .play b s → s.regs.playRemaining ≠ 0 → (∃ a rest, s.sinkAnswers = (a + 1) :: rest) →
      ∃ t, exec (.psvc b) s = .next t ∧ t.regs.playRemaining.toNat < s.regs.playRemaining.toNat) ∧
    (BurstsClear .cap b s → s.regs.capRemaining ≠ 0 → (∃ x xs rest, s.sourceAnswers = (x :: xs) :: rest) →
      ∃ t, exec (.csvc b) s = .next t ∧ t.regs.capRemaining.toNat < s.regs.capRemaining.toNat)

/-- A playback service is refused exactly when one of its bursts is one the spec gives no meaning: at the first
such burst, whichever it is, under the name of the reason (20_memory.md R71, R75, R74). Which name comes first
where several reasons hold, and that earlier bursts leave nothing behind, is the model's choice (log entry 10). -/
def Obligations.ForbiddenPlaybackBurstIsRefused : Prop :=
  ∀ (b : Nat) (s : State),
    let want := min s.regs.playRemaining.toNat b
    (∀ j cursor n, Pseudocode.playBurst s want j = some (cursor, n) →
      (∀ i < j, ∀ c m, Pseudocode.playBurst s want i = some (c, m) →
        ¬ Pseudocode.ReadForbidden s.cfg c m) →
      (Pseudocode.CrossesTop s.cfg cursor n → exec (.psvc b) s = .refused .burstCrossesTop) ∧
      (¬ Pseudocode.CrossesTop s.cfg cursor n → Pseudocode.CoversWindow s.cfg cursor n →
        exec (.psvc b) s = .refused .burstCoversWindow) ∧
      (¬ Pseudocode.CrossesTop s.cfg cursor n → ¬ Pseudocode.CoversWindow s.cfg cursor n →
        Pseudocode.CoversSideEffects s.cfg cursor n →
        exec (.psvc b) s = .refused .burstReadsSideEffects)) ∧
    (∀ r, exec (.psvc b) s = .refused r →
      ∃ j cursor n, Pseudocode.playBurst s want j = some (cursor, n) ∧
        Pseudocode.ReadForbidden s.cfg cursor n)

/-- The same of capture, whose burst is the bytes the source produced and whose reads do not exist: an address
with read side effects never refuses it (20_memory.md R71, R75, R74; log entry 10). -/
def Obligations.ForbiddenCaptureBurstIsRefused : Prop :=
  ∀ (b : Nat) (s : State),
    let want := min s.regs.capRemaining.toNat b
    (∀ j cursor n, Pseudocode.capBurst s want j = some (cursor, n) →
      (∀ i < j, ∀ c m, Pseudocode.capBurst s want i = some (c, m) →
        ¬ Pseudocode.WriteForbidden s.cfg c m) →
      (Pseudocode.CrossesTop s.cfg cursor n → exec (.csvc b) s = .refused .burstCrossesTop) ∧
      (¬ Pseudocode.CrossesTop s.cfg cursor n → Pseudocode.CoversWindow s.cfg cursor n →
        exec (.csvc b) s = .refused .burstCoversWindow)) ∧
    (∀ r, exec (.csvc b) s = .refused r →
      r ≠ .burstReadsSideEffects ∧
      ∃ j cursor n, Pseudocode.capBurst s want j = some (cursor, n) ∧
        Pseudocode.WriteForbidden s.cfg cursor n)

/-- A live channel follows a rewritten cursor or counter: the service after the write starts at the written
address, or moves at most the written count from the cursor it had (70_reset_and_hazards.md R265, 20_memory.md
R79). Stated of both registers of both channels, in every channel state and under any parameters that refuse
none of the service's bursts. -/
def Obligations.LiveChannelFollowsARewrittenRegister : Prop :=
  ∀ (v : Word) (b : Nat) (s : State), b ≠ 0 →
    (s.regs.playRemaining ≠ 0 → BurstsClear .play b { s with regs := { s.regs with playAddr := v } } →
      ∃ (t : State) (k : Nat) (es : List Event), runAll [.wrPlayAddr v, .psvc b] s = .next t ∧
        t.trace = s.trace ++
          .offer v ((List.range (min (s.cfg.stagingBytes : Nat) (min s.regs.playRemaining.toNat b))).map
            fun k => s.mem.read ((v.toNat + k) % 2 ^ s.cfg.paddrBits)) k :: es) ∧
    (v ≠ 0 → BurstsClear .play b { s with regs := { s.regs with playRemaining := v } } →
      ∃ (t : State) (bytes : List Byte) (k : Nat) (es : List Event),
        runAll [.wrPlayRemaining v, .psvc b] s = .next t ∧
        t.trace = s.trace ++ .offer s.regs.playAddr bytes k :: es ∧
        bytes.length = min (s.cfg.stagingBytes : Nat) (min v.toNat b) ∧
        t.regs.playRemaining.toNat ≤ v.toNat ∧
        t.regs.playAddr = s.regs.playAddr + (v - t.regs.playRemaining)) ∧
    (MemCanonical s → s.cfg.paddrBits ≤ 32 → s.regs.capRemaining.toNat ≤ 2 ^ s.cfg.paddrBits →
      BurstsClear .cap b { s with regs := { s.regs with capAddr := v } } →
      ∃ (t : State) (stream : List Byte), runAll [.wrCapAddr v, .csvc b] s = .next t ∧
        captured t.trace = captured s.trace ++ stream ∧
        t.regs.capAddr = v + BitVec.ofNat 32 stream.length ∧
        (∀ k (hk : k < stream.length),
          t.mem.read ((v.toNat + k) % 2 ^ s.cfg.paddrBits) = stream[k]) ∧
        (∀ a, (∀ k, k < stream.length → (v.toNat + k) % 2 ^ s.cfg.paddrBits ≠ a) →
          t.mem.read a = s.mem.read a)) ∧
    (v ≠ 0 → BurstsClear .cap b { s with regs := { s.regs with capRemaining := v } } →
      ∃ (t : State) (bytes : List Byte) (es : List Event),
        runAll [.wrCapRemaining v, .csvc b] s = .next t ∧
        t.trace = s.trace ++ .pull (min (s.cfg.stagingBytes : Nat) (min v.toNat b)) bytes :: es ∧
        t.regs.capRemaining.toNat ≤ v.toNat ∧
        t.regs.capAddr = s.regs.capAddr + (v - t.regs.capRemaining))

/-- Driving an armed playback channel: after any sequence of services PLAY_ADDR has advanced by what
PLAY_REMAINING went down by, the completion line has been pulsed exactly once if the counter is 0 and not at
all otherwise, and once it is 0 every later service changes nothing (42_playback_dma.md R180). -/
def Obligations.ArmedPlaybackCompletesExactlyOnce : Prop :=
  ∀ (bs : List Nat) (s t : State), s.regs.playCtrl.getLsbD 0 = true → s.regs.playRemaining ≠ 0 →
    runAll (bs.map .psvc) s = .next t →
    t.regs.playAddr = s.regs.playAddr + (s.regs.playRemaining - t.regs.playRemaining) ∧
    pulses t.trace =
      pulses s.trace ++ (if t.regs.playRemaining = 0 then [.playDone] else []) ∧
    (t.regs.playRemaining = 0 → ∀ b : Nat, exec (.psvc b) t = .next t)

/-- The same of capture (43_capture_dma.md R200). -/
def Obligations.ArmedCaptureCompletesExactlyOnce : Prop :=
  ∀ (bs : List Nat) (s t : State), s.regs.capCtrl.getLsbD 0 = true → s.regs.capRemaining ≠ 0 →
    runAll (bs.map .csvc) s = .next t →
    t.regs.capAddr = s.regs.capAddr + (s.regs.capRemaining - t.regs.capRemaining) ∧
    pulses t.trace =
      pulses s.trace ++ (if t.regs.capRemaining = 0 then [.capDone] else []) ∧
    (t.regs.capRemaining = 0 → ∀ b : Nat, exec (.csvc b) t = .next t)

/-- A sink that accepts every offer in full drains an armed channel once the budgets sum to the counter: the
property of the source with the two premises 42_playback_dma.md R180 adds. -/
def Obligations.FullAcceptanceDrainsThePlayback : Prop :=
  ∀ (bs : List Nat) (s : State), BurstsClear .play s.regs.playRemaining.toNat s →
    s.regs.playCtrl.getLsbD 0 = true → s.regs.playRemaining ≠ 0 →
    (∀ a ∈ s.sinkAnswers, (s.cfg.stagingBytes : Nat) ≤ a) →
    s.regs.playRemaining.toNat ≤ s.sinkAnswers.length →
    s.regs.playRemaining.toNat ≤ bs.sum →
    ∃ t, runAll (bs.map .psvc) s = .next t ∧ t.regs.playRemaining = 0 ∧
      t.regs.playAddr = s.regs.playAddr + s.regs.playRemaining ∧
      pulses t.trace = pulses s.trace ++ [.playDone]

/-- A completion lost is lost for good: with the counter at 0, setting the enable bit and servicing the
channel pulses nothing and moves nothing (70_reset_and_hazards.md R266(a), R267). -/
def Obligations.EnablingADrainedChannelNeverPulses : Prop :=
  ∀ (v : Word) (b : Nat) (s : State),
    (s.regs.playRemaining = 0 → ∃ t, runAll [.wrPlayCtrl v, .psvc b] s = .next t ∧
      t.trace = s.trace ∧ t.regs.playRemaining = 0) ∧
    (s.regs.capRemaining = 0 → ∃ t, runAll [.wrCapCtrl v, .csvc b] s = .next t ∧
      t.trace = s.trace ∧ t.regs.capRemaining = 0)

/-! ### Reset and restore -/

/-- RST zeroes every word and deactivates both streams, and does nothing else: no pulse, no diagnostic,
host memory untouched; its `arg` is ignored (44_lifecycle.md R210; 10_state.md R54). -/
def Obligations.ResetZeroesWordsAndDeactivatesStreams : Prop :=
  (∀ arg : Nat, decode ⟨4, arg, []⟩ = .ok .rst) ∧
  (∀ r : Slot, RegFile.zero.get r = 0) ∧
  ∀ s : State, exec .rst s =
    .next { s with regs := RegFile.zero, playActive := false, capActive := false }

/-- RSTR stores the eleven words verbatim and re-evaluates both flags, and does nothing else: no pulse, no
diagnostic; its `arg` is ignored (44_lifecycle.md R211). -/
def Obligations.RestoreLoadsTheSnapshotAndReevaluates : Prop :=
  (∀ (arg : Nat) (w : RegFile), decode ⟨5, arg, w.toWords⟩ = .ok (.rstr w)) ∧
  ∀ (w : RegFile) (s : State), exec (.rstr w) s =
    .next { s with
            regs := w
            playActive := w.playCtrl.getLsbD 0
            capActive := w.capCtrl.getLsbD 0 }

/-- Saving a snapshot and restoring it, with no operation between, leaves the block as it was, stream flags
included (44_lifecycle.md R214); the flags match in every state between two operations (10_state.md R48). -/
def Obligations.RestoreOfASavedSnapshotIsTheIdentity : Prop :=
  ∀ s : State, FlagsMatch s → exec (.rstr (snapshot s)) s = .next s

/-- The state at construction: every word 0, both flags 0, and the same as what RST leaves of them
(10_state.md R54, R55). -/
def Obligations.ConstructionStateEqualsTheResetState : Prop :=
  (∀ r : Slot, State.reset.regs.get r = 0) ∧ State.reset.playActive = false ∧
  State.reset.capActive = false ∧
  ∀ s : State, ∃ t, exec .rst s = .next t ∧ t.regs = State.reset.regs ∧
    t.playActive = State.reset.playActive ∧ t.capActive = State.reset.capActive

/-- ARM_PLAY and ARM_CAP arm their channel: from any state, with a count that is not 0, the channel is armed
at the address and its stream is active, and nothing is pulsed (30_encoding.md R107, 70_reset_and_hazards.md
R262). -/
def Obligations.ArmSequencesArmTheChannel : Prop :=
  ∀ (a n : Word) (s : State), n ≠ 0 →
    (∃ t, runAll (armPlay a n) s = .next t ∧ channelState .play t = .armed ∧ t.playActive = true ∧
      t.regs.playAddr = a ∧ t.regs.playRemaining = n ∧ t.trace = s.trace) ∧
    (∃ t, runAll (armCap a n) s = .next t ∧ channelState .cap t = .armed ∧ t.capActive = true ∧
      t.regs.capAddr = a ∧ t.regs.capRemaining = n ∧ t.trace = s.trace)

/-! ### Whole-machine rules -/

/-- Which operation may change which word: the "State written" entries of all 28 operations, over all of
them (40_register_read.md to 44_lifecycle.md; 10_state.md R35, R39; 40_register_read.md R125). -/
def Obligations.WordsChangeOnlyByTheirWriters : Prop :=
  ∀ (i : Instr) (s t : State) (r : Slot), exec i s = .next t → r ∉ mayWrite i →
    t.regs.get r = s.regs.get r

/-- Host memory changes in no operation but CAP_SERVICE (20_memory.md R70), and the stream flags only by a
write of a DMA channel's CTRL, RESET and RESTORE (10_state.md R46, R47; 41_register_write.md R153). -/
def Obligations.HostMemoryAndStreamFlagsChangeOnlyByTheirWriters : Prop :=
  ∀ (i : Instr) (s t : State), exec i s = .next t →
    ((∀ b, i ≠ .csvc b) → t.mem = s.mem) ∧
    ((∀ v, i ≠ .wrPlayCtrl v) → (∀ v, i ≠ .wrCapCtrl v) → i ≠ .rst → (∀ w, i ≠ .rstr w) →
      t.playActive = s.playActive ∧ t.capActive = s.capActive)

/-- The causes of the two codec lines, over all operations (60_exceptions.md R230, R231). -/
def Obligations.CodecLinesPulseOnlyOnCommandWrites : Prop :=
  ∀ (i : Instr) (s t : State), exec i s = .next t →
    (∀ v, i = .wrCodecCtrl v →
      pulseCount .codecRequest t.trace = pulseCount .codecRequest s.trace +
        (if v.getLsbD 0 = true ∧ v.getLsbD 1 = true then 1 else 0) ∧
      pulseCount .codecReply t.trace = pulseCount .codecReply s.trace +
        (if v.getLsbD 0 = true ∧ v.getLsbD 1 = false then 1 else 0)) ∧
    ((∀ v, i ≠ .wrCodecCtrl v) →
      pulseCount .codecRequest t.trace = pulseCount .codecRequest s.trace ∧
      pulseCount .codecReply t.trace = pulseCount .codecReply s.trace)

/-- The causes of the two completion lines, over all operations: one pulse per service at whose end the
enable bit is 1 and the counter 0 after at least one byte moved; no other cause (60_exceptions.md R232,
R233). -/
def Obligations.CompletionLinesPulseOnlyOnDrainingServices : Prop :=
  ∀ (i : Instr) (s t : State), exec i s = .next t →
    (∀ b, i = .psvc b → pulseCount .playDone t.trace = pulseCount .playDone s.trace +
      (if t.regs.playCtrl.getLsbD 0 = true ∧ t.regs.playRemaining = 0 ∧
        t.regs.playRemaining ≠ s.regs.playRemaining then 1 else 0)) ∧
    ((∀ b, i ≠ .psvc b) → pulseCount .playDone t.trace = pulseCount .playDone s.trace) ∧
    (∀ b, i = .csvc b → pulseCount .capDone t.trace = pulseCount .capDone s.trace +
      (if t.regs.capCtrl.getLsbD 0 = true ∧ t.regs.capRemaining = 0 ∧
        t.regs.capRemaining ≠ s.regs.capRemaining then 1 else 0)) ∧
    ((∀ b, i ≠ .csvc b) → pulseCount .capDone t.trace = pulseCount .capDone s.trace)

/-- One operation makes at most one pulse, and the pulses of a trace stand in the order of the operations
that made them (60_exceptions.md R235). -/
def Obligations.OneOperationMakesAtMostOnePulse : Prop :=
  ∀ (i : Instr) (s t : State), exec i s = .next t →
    ∃ new : List Line, pulses t.trace = pulses s.trace ++ new ∧ new.length ≤ 1

/-- The only transition of a channel that pulses its completion line is armed to enabled-drained by its own
service operation (41_register_write.md R154). -/
def Obligations.CompletionIsTheArmedToDrainedTransition : Prop :=
  ∀ (i : Instr) (s t : State) (ch : Channel), exec i s = .next t →
    (pulseCount ch.doneLine t.trace ≠ pulseCount ch.doneLine s.trace ↔
      servicedChannel i = some ch ∧ channelState ch s = .armed ∧ channelState ch t = .enabledDrained)

/-- For the lifetime of one armed transfer, through any operations that do not re-arm it, REMAINING only
decreases and `ADDR = ADDR_start +32 (REMAINING_init - REMAINING)` (10_state.md R52). -/
def Obligations.CursorAndCounterMoveTogether : Prop :=
  ∀ (is : List Instr) (s t : State) (ch : Channel),
    (∀ i ∈ is, servicedChannel i = some ch ∨ (ch.addr ∉ mayWrite i ∧ ch.remaining ∉ mayWrite i)) →
    runAll is s = .next t →
    (t.regs.get ch.remaining).toNat ≤ (s.regs.get ch.remaining).toNat ∧
    t.regs.get ch.addr =
      s.regs.get ch.addr + (s.regs.get ch.remaining - t.regs.get ch.remaining)

/-- A completion line fires exactly when the channel's enable bit is set and its counter goes to zero by a
transfer step, and at most once per transfer: through any operations that do not rewrite the counter it is
pulsed at most once (10_state.md R53). -/
def Obligations.CompletionFiresAtMostOncePerTransfer : Prop :=
  (∀ (i : Instr) (s t : State) (ch : Channel), exec i s = .next t →
    (pulseCount ch.doneLine t.trace ≠ pulseCount ch.doneLine s.trace ↔
      servicedChannel i = some ch ∧ (s.regs.get ch.ctrl).getLsbD 0 = true ∧
        s.regs.get ch.remaining ≠ 0 ∧ t.regs.get ch.remaining = 0)) ∧
  ∀ (is : List Instr) (s t : State) (ch : Channel),
    (∀ i ∈ is, servicedChannel i = some ch ∨ ch.remaining ∉ mayWrite i) → runAll is s = .next t →
    pulseCount ch.doneLine t.trace ≤ pulseCount ch.doneLine s.trace + 1

/-- No operation fails: every operation but a service answers a next state in every state, and a service does so
in every state and under any parameters that refuse none of the bursts it may make (60_exceptions.md R225). -/
def Obligations.NoOperationFails : Prop :=
  (∀ (i : Instr) (s : State), servicedChannel i = none → ∃ t, exec i s = .next t) ∧
  (∀ (b : Nat) (s : State), BurstsClear .play b s → ∃ t, exec (.psvc b) s = .next t) ∧
  (∀ (b : Nat) (s : State), BurstsClear .cap b s → ∃ t, exec (.csvc b) s = .next t)

/-- No operation reads the reserved word: two states that differ in `x[7]` alone are taken to states that
differ in it alone, with the same outputs, or refused alike (10_state.md R39). -/
def Obligations.ReservedWordIsNeverRead : Prop :=
  ∀ (i : Instr) (s : State) (v : Word),
    (∀ t, exec i s = .next t →
      ∃ w : Word, exec i { s with regs := { s.regs with reserved := v } } =
        .next { t with regs := { t.regs with reserved := w } }) ∧
    (∀ r, exec i s = .refused r →
      exec i { s with regs := { s.regs with reserved := v } } = .refused r)

/-- The three opaque codec words are never interpreted: an operation that is not a read of one of them does
the same whatever they hold (10_state.md R33, R34, R35). -/
def Obligations.OpaqueCodecWordsAreNeverInterpreted : Prop :=
  ∀ (i : Instr) (s : State) (a o d : Word),
    i ≠ .rdCodecAddr → i ≠ .rdCodecDataOut → i ≠ .rdCodecDataIn →
    (∀ t, exec i s = .next t →
      ∃ a' o' d' : Word,
        exec i { s with regs := { s.regs with codecAddr := a, codecDataOut := o, codecDataIn := d } } =
          .next { t with
                  regs := { t.regs with codecAddr := a', codecDataOut := o', codecDataIn := d' } }) ∧
    (∀ r, exec i s = .refused r →
      exec i { s with regs := { s.regs with codecAddr := a, codecDataOut := o, codecDataIn := d } } =
        .refused r)

/-- No operation reads the output trace, and every operation only appends to it (60_exceptions.md R226,
R229). -/
def Obligations.TraceIsOnlyAppendedTo : Prop :=
  ∀ (i : Instr) (s t : State), exec i s = .next t →
    ∃ es : List Event, ∀ tr : List Event,
      exec i { s with trace := tr } = .next { t with trace := tr ++ es }

/-! ### Steps and invariants -/

/-- A step runs the decoded operation: when the next input is a descriptor that decodes and that an agent
may issue, the step is `exec` of the operation at the state with that input taken. -/
def Obligations.StepRunsTheDecodedOperation : Prop :=
  ∀ (s : State) (d : Descriptor) (rest : List Input) (i : Instr),
    s.pending = .op d :: rest → decode d = .ok i →
    (d.kind = 0 ∨ d.kind = 1 → d.arg < 2 ^ s.cfg.indexBits) →
    (d.kind = 2 ∨ d.kind = 3 → d.arg < 2 ^ s.cfg.budgetBits) →
    (servicedChannel i = none ∨ s.cfg.serviceWhenInactive = true ∨
      (∃ ch, servicedChannel i = some ch ∧ streamActive ch s = true)) →
    step s = exec i { s with pending := rest }

/-- When a step is refused before its operation runs: a descriptor that spells no operation (30_encoding.md
R104), an index of more than INDEX_BITS bits or a budget of more than BUDGET_BITS (00_scope.md R12, R13), and a
service event to a channel whose stream flag is 0 without SERVICE_WHEN_INACTIVE (42_playback_dma.md R178,
43_capture_dma.md R198); the refusal is the model's form of "no agent issues it" (log entries 4 and 11). -/
def Obligations.StepRefusesWhatNoAgentIssues : Prop :=
  ∀ (s : State) (d : Descriptor) (rest : List Input), s.pending = .op d :: rest →
    (∀ e, decode d = .error e → step s = .refused (.badDescriptor e)) ∧
    (∀ i, decode d = .ok i →
      (d.kind = 0 ∨ d.kind = 1) ∧ 2 ^ s.cfg.indexBits ≤ d.arg ∨
        (d.kind = 2 ∨ d.kind = 3) ∧ 2 ^ s.cfg.budgetBits ≤ d.arg →
      step s = .refused .argOutsideDomain) ∧
    (∀ i ch, decode d = .ok i → d.arg < 2 ^ s.cfg.budgetBits → servicedChannel i = some ch →
      s.cfg.serviceWhenInactive = false → streamActive ch s = false →
      step s = .refused (.serviceWhileInactive ch))

/-- A host store between two operations changes the byte it names and nothing else, and the block has no
step of its own: with nothing pending a step changes nothing (20_memory.md R80, R83; 00_scope.md R5; log
entries 1 and 14). -/
def Obligations.HostStoreAndIdleSteps : Prop :=
  (∀ s : State, s.pending = [] → step s = .next s) ∧
  ∀ (s : State) (a : Nat) (v : Byte) (rest : List Input), MemCanonical s →
    s.pending = .hostStore a v :: rest →
    ∃ t, step s = .next t ∧ t = { s with mem := t.mem, pending := rest } ∧ t.mem.read a = v ∧
      ∀ x, x ≠ a → t.mem.read x = s.mem.read x

/-- Every step keeps each stream flag equal to its channel's enable bit (10_state.md R48). -/
def Obligations.StepKeepsTheStreamFlags : Prop :=
  ∀ s t : State, FlagsMatch s → step s = .next t → FlagsMatch t

/-- In every state reached from construction, whatever the parameters, the memory and the inputs, each
stream flag is its channel's enable bit (10_state.md R48). -/
def Obligations.StreamFlagsMatchInEveryReachedState : Prop :=
  ∀ (n : Nat) (mem : Memory) (cfg : Config) (pending : List Input) (sink : List Nat)
    (source : List (List Byte)) (t : State),
    Sys2Proof.core.run n { State.reset with
                           mem := mem, cfg := cfg, pending := pending, sinkAnswers := sink,
                           sourceAnswers := source } = .next t →
    t.playActive = t.regs.playCtrl.getLsbD 0 ∧ t.capActive = t.regs.capCtrl.getLsbD 0

/-- Every step keeps host memory in its canonical form. -/
def Obligations.StepKeepsMemoryCanonical : Prop :=
  ∀ s t : State, MemCanonical s → step s = .next t → MemCanonical t

/-- Unless it is a RESTORE, a step keeps the stored request-enable bit 0 and the reserved word 0
(10_state.md R32, R39). -/
def Obligations.StepKeepsRequestBitAndReservedWordClear : Prop :=
  ∀ s t : State, RequestBitClear s → ReservedZero s → step s = .next t →
    (∀ d rest w, s.pending = .op d :: rest → decode d ≠ .ok (.rstr w)) →
    RequestBitClear t ∧ ReservedZero t

/-- The four invariants hold at reset. -/
def Obligations.ResetMeetsTheInvariants : Prop :=
  FlagsMatch State.reset ∧ MemCanonical State.reset ∧ RequestBitClear State.reset ∧
  ReservedZero State.reset

/-- No step changes the parameters, and no step takes anything back that has left the block. -/
def Obligations.StepKeepsParametersAndPastOutputs : Prop :=
  ∀ s t : State, step s = .next t → t.cfg = s.cfg ∧ s.trace <+: t.trace
end

