-- ==== Sys2Proof/Laws/RegFile.lean ====
section
/-! SUPPORT. The small lemmas of the register file. -/

namespace Sys2Proof

@[simp] theorem RegFile.get_set_self (x : RegFile) (r : Slot) (v : Word) : (x.set r v).get r = v := by
  cases r <;> rfl

theorem RegFile.get_set_ne (x : RegFile) {r q : Slot} (v : Word) (h : q ≠ r) :
    (x.set r v).get q = x.get q := by
  cases r <;> cases q <;> first | rfl | exact absurd rfl h

@[simp] theorem RegFile.get_zero (r : Slot) : RegFile.zero.get r = 0 := by cases r <;> rfl

theorem RegFile.ext_get {x y : RegFile} (h : ∀ r, x.get r = y.get r) : x = y := by
  cases x; cases y
  have h0 := h .codecCtrl
  have h1 := h .codecAddr
  have h2 := h .codecDataOut
  have h3 := h .codecDataIn
  have h4 := h .playCtrl
  have h5 := h .playAddr
  have h6 := h .playRemaining
  have h7 := h .reserved
  have h8 := h .capCtrl
  have h9 := h .capAddr
  have h10 := h .capRemaining
  simp only [RegFile.get] at h0 h1 h2 h3 h4 h5 h6 h7 h8 h9 h10
  simp only [h0, h1, h2, h3, h4, h5, h6, h7, h8, h9, h10]

@[simp] theorem Slot.ofIndex_index (r : Slot) : Slot.ofIndex r.index = some r := by cases r <;> rfl

theorem Slot.index_lt (r : Slot) : r.index < 11 := by cases r <;> decide

theorem Slot.index_inj {r q : Slot} (h : r.index = q.index) : r = q := by
  have := congrArg Slot.ofIndex h
  simpa using this

theorem Slot.index_of_ofIndex {n : Nat} {r : Slot} (h : Slot.ofIndex n = some r) : r.index = n := by
  unfold Slot.ofIndex at h
  split at h <;> first | (cases h; rfl) | cases h

theorem Slot.ofIndex_eq_none_iff (n : Nat) : Slot.ofIndex n = none ↔ 11 ≤ n := by
  constructor
  · intro h
    by_contra hn
    have : n < 11 := by omega
    interval_cases n <;> simp [Slot.ofIndex] at h
  · intro h
    cases hs : Slot.ofIndex n with
    | none => rfl
    | some r =>
      have h1 := Slot.index_of_ofIndex hs
      have h2 := r.index_lt
      omega

@[simp] theorem RegFile.ofWords_toWords (w : RegFile) : RegFile.ofWords w.toWords = some w := rfl

theorem RegFile.toWords_of_ofWords {p : List Word} {w : RegFile} (h : RegFile.ofWords p = some w) :
    w.toWords = p := by
  unfold RegFile.ofWords at h
  split at h
  · cases h; rfl
  · cases h

end Sys2Proof
end

