-- ==== Sys2Proof/Laws/Decode.lean ====
section
/-! SUPPORT. The fields of `H`, what a decoded descriptor is, and which row of the opcode table fits. -/

namespace Sys2Proof

@[simp] theorem header_kind (k : BitVec 3) (a : BitVec 32) : (header k a).extractLsb' 32 3 = k := by
  unfold header
  exact BitVec.extractLsb'_append_eq_left

@[simp] theorem header_arg (k : BitVec 3) (a : BitVec 32) : (header k a).extractLsb' 0 32 = a := by
  unfold header
  exact BitVec.extractLsb'_append_eq_right

/-- `H` is its two fields (30_encoding.md R92). -/
theorem header_eta (h : BitVec 35) : header (h.extractLsb' 32 3) (h.extractLsb' 0 32) = h := by
  unfold header
  exact BitVec.extractLsb'_append_extractLsb'_eq_extractLsb' (by rfl) |>.trans (by simp)

theorem header_inj {k k' : BitVec 3} {a a' : BitVec 32} : header k a = header k' a' ↔ k = k' ∧ a = a' := by
  constructor
  · intro h
    have hk := congrArg (fun h => BitVec.extractLsb' 32 3 h) h
    have ha := congrArg (fun h => BitVec.extractLsb' 0 32 h) h
    simp only [header_kind, header_arg] at hk ha
    exact ⟨hk, ha⟩
  · rintro ⟨rfl, rfl⟩
    rfl

/-- A descriptor given by `H` has the fields of `H`. -/
@[simp] theorem Descriptor.ofH_header (k : BitVec 3) (a : BitVec 32) (p : List Word) :
    Descriptor.ofH (header k a) p = ⟨k, a.toNat, p⟩ := by
  simp [Descriptor.ofH]

@[simp] theorem Descriptor.ofH_kind (h : BitVec 35) (p : List Word) :
    (Descriptor.ofH h p).kind = h.extractLsb' 32 3 := rfl

@[simp] theorem Descriptor.ofH_arg (h : BitVec 35) (p : List Word) :
    (Descriptor.ofH h p).arg = (h.extractLsb' 0 32).toNat := rfl

@[simp] theorem Descriptor.ofH_payload (h : BitVec 35) (p : List Word) : (Descriptor.ofH h p).payload = p := rfl

/-- The `H` of a descriptor given by `H` is that `H`. -/
@[simp] theorem Descriptor.h_ofH (h : BitVec 35) (p : List Word) : (Descriptor.ofH h p).h = h := by
  unfold Descriptor.h Descriptor.ofH
  rw [BitVec.ofNat_toNat, BitVec.setWidth_eq, header_eta]

/-- A descriptor whose `arg` has 32 bits is the one its `H` gives. -/
theorem Descriptor.ofH_h {d : Descriptor} (ha : d.arg < 2 ^ 32) : Descriptor.ofH d.h d.payload = d := by
  obtain ⟨k, a, p⟩ := d
  rw [Descriptor.h, ofH_header, BitVec.toNat_ofNat, Nat.mod_eq_of_lt ha]

theorem withoutPayload_ok {i j : Instr} {p : List Word} (h : withoutPayload i p = .ok j) : p = [] ∧ j = i := by
  unfold withoutPayload at h
  split at h <;> cases h
  exact ⟨rfl, rfl⟩

theorem withValue_ok {a : Nat} {j : Instr} {p : List Word} (h : withValue a p = .ok j) :
    ∃ v, p = [v] ∧ j = .writeAt a v := by
  unfold withValue at h
  split at h <;> cases h
  exact ⟨_, rfl, rfl⟩

theorem withSnapshot_ok {j : Instr} {p : List Word} (h : withSnapshot p = .ok j) :
    ∃ w : RegFile, p = w.toWords ∧ j = .rstr w := by
  unfold withSnapshot at h
  split at h <;> cases h
  rename_i hw
  exact ⟨_, (RegFile.toWords_of_ofWords hw).symm, rfl⟩

/-- Everything a descriptor that decodes can be: one of the six kinds with the payload it has. -/
theorem decode_ok_cases {d : Descriptor} {i : Instr} (h : decode d = .ok i) :
    (∃ a, d = ⟨0, a, []⟩ ∧ i = .readAt a) ∨
    (∃ a v, d = ⟨1, a, [v]⟩ ∧ i = .writeAt a v) ∨
    (∃ a, d = ⟨2, a, []⟩ ∧ i = .psvc a) ∨
    (∃ a, d = ⟨3, a, []⟩ ∧ i = .csvc a) ∨
    (∃ a, d = ⟨4, a, []⟩ ∧ i = .rst) ∨
    (∃ a w, d = ⟨5, a, w.toWords⟩ ∧ i = .rstr w) := by
  obtain ⟨k, a, p⟩ := d
  unfold decode at h
  have hk : k = 0 ∨ k = 1 ∨ k = 2 ∨ k = 3 ∨ k = 4 ∨ k = 5 ∨ k = 6 ∨ k = 7 := by
    clear h
    revert k
    decide
  rcases hk with rfl | rfl | rfl | rfl | rfl | rfl | rfl | rfl
  · obtain ⟨rfl, rfl⟩ := withoutPayload_ok h
    exact .inl ⟨a, rfl, rfl⟩
  · obtain ⟨v, rfl, rfl⟩ := withValue_ok h
    exact .inr (.inl ⟨a, v, rfl, rfl⟩)
  · obtain ⟨rfl, rfl⟩ := withoutPayload_ok h
    exact .inr (.inr (.inl ⟨a, rfl, rfl⟩))
  · obtain ⟨rfl, rfl⟩ := withoutPayload_ok h
    exact .inr (.inr (.inr (.inl ⟨a, rfl, rfl⟩)))
  · obtain ⟨rfl, rfl⟩ := withoutPayload_ok h
    exact .inr (.inr (.inr (.inr (.inl ⟨a, rfl, rfl⟩))))
  · obtain ⟨w, rfl, rfl⟩ := withSnapshot_ok h
    exact .inr (.inr (.inr (.inr (.inr ⟨a, w, rfl, rfl⟩))))
  · cases h
  · cases h

/-- A row that compares the kind only fits exactly the headers of its kind. -/
theorem kindRow_fits (m : String) (last : Bool) (k k' : BitVec 3) (a : BitVec 32) :
    (kindRow m (header k 0#32) last).fits (header k' a) = decide (k' = k) := by
  have hm : (0x700000000#35 : BitVec 35) = header 7 0#32 := by decide
  have h7 : k' &&& 7 = k' := BitVec.and_allOnes (x := k')
  simp only [Row.fits, kindRow, hm]
  unfold header
  rw [BitVec.and_append, h7, show a &&& 0#32 = 0#32 from BitVec.and_zero, beq_eq_decide]
  exact decide_eq_decide.2 ⟨fun h => (header_inj.1 h).1, fun h => by rw [h]⟩

/-- An exact row fits its own header only. -/
theorem exactRow_fits (m : String) (h h' : BitVec 35) : (exactRow m h).fits h' = decide (h' = h) := by
  have hm : h' &&& 0x7FFFFFFFF#35 = h' := BitVec.and_allOnes (x := h')
  simp only [Row.fits, exactRow, hm, beq_eq_decide]

/-- The rows tried first, their patterns as kind and index. -/
theorem firstRows_eq : (opcodeTable.filter fun r => !r.last) =
    [exactRow "RD_CODEC_CTRL" (header 0 0), exactRow "RD_CODEC_ADDR" (header 0 1),
     exactRow "RD_CODEC_DATA_OUT" (header 0 2), exactRow "RD_CODEC_DATA_IN" (header 0 3),
     exactRow "RD_PLAY_CTRL" (header 0 4), exactRow "RD_PLAY_ADDR" (header 0 5),
     exactRow "RD_PLAY_REMAINING" (header 0 6), exactRow "RD_CAP_CTRL" (header 0 8),
     exactRow "RD_CAP_ADDR" (header 0 9), exactRow "RD_CAP_REMAINING" (header 0 10),
     exactRow "RD__7" (header 0 7)] ++
    [exactRow "WR_CODEC_CTRL" (header 1 0), exactRow "WR_CODEC_ADDR" (header 1 1),
     exactRow "WR_CODEC_DATA_OUT" (header 1 2), exactRow "WR_CODEC_DATA_IN" (header 1 3),
     exactRow "WR_PLAY_CTRL" (header 1 4), exactRow "WR_PLAY_ADDR" (header 1 5),
     exactRow "WR_PLAY_REMAINING" (header 1 6), exactRow "WR_CAP_CTRL" (header 1 8),
     exactRow "WR_CAP_ADDR" (header 1 9), exactRow "WR_CAP_REMAINING" (header 1 10),
     exactRow "WR__7" (header 1 7)] ++
    [kindRow "PSVC" (header 2 0) false, kindRow "CSVC" (header 3 0) false,
     kindRow "RST" (header 4 0) false, kindRow "RSTR" (header 5 0) false] := by
  rfl

/-- The rows tried last, their patterns as kind. -/
theorem lastRows_eq : (opcodeTable.filter fun r => r.last) =
    [kindRow "RD__out_of_range" (header 0 0) true, kindRow "WR__out_of_range" (header 1 0) true] := by
  rfl

/-- An index of 11 or more is none of 0 to 10. -/
theorem ne_of_outOfRange {a : BitVec 32} (h : outOfRange a.toNat = true) (n : Nat) (hn : n < 11) :
    a ≠ BitVec.ofNat 32 n := by
  rintro rfl
  simp only [outOfRange, BitVec.toNat_ofNat, decide_eq_true_eq] at h
  omega

theorem lookupRow_read_outOfRange {a : BitVec 32} (h : outOfRange a.toNat = true) :
    lookupRow (header 0 a) = some (kindRow "RD__out_of_range" (header 0 0) true) := by
  have hn := ne_of_outOfRange h
  have h0 := hn 0; have h1 := hn 1; have h2 := hn 2; have h3 := hn 3; have h4 := hn 4; have h5 := hn 5
  have h6 := hn 6; have h7 := hn 7; have h8 := hn 8; have h9 := hn 9; have h10 := hn 10
  unfold lookupRow
  rw [firstRows_eq, lastRows_eq]
  simp_all [exactRow_fits, kindRow_fits, header_inj]

theorem lookupRow_write_outOfRange {a : BitVec 32} (h : outOfRange a.toNat = true) :
    lookupRow (header 1 a) = some (kindRow "WR__out_of_range" (header 1 0) true) := by
  have hn := ne_of_outOfRange h
  have h0 := hn 0; have h1 := hn 1; have h2 := hn 2; have h3 := hn 3; have h4 := hn 4; have h5 := hn 5
  have h6 := hn 6; have h7 := hn 7; have h8 := hn 8; have h9 := hn 9; have h10 := hn 10
  unfold lookupRow
  rw [firstRows_eq, lastRows_eq]
  simp_all [exactRow_fits, kindRow_fits, header_inj]

theorem lookupRow_psvc (a : BitVec 32) :
    lookupRow (header 2 a) = some (kindRow "PSVC" (header 2 0) false) := by
  unfold lookupRow
  rw [firstRows_eq]
  simp [exactRow_fits, kindRow_fits, header_inj]

theorem lookupRow_csvc (a : BitVec 32) :
    lookupRow (header 3 a) = some (kindRow "CSVC" (header 3 0) false) := by
  unfold lookupRow
  rw [firstRows_eq]
  simp [exactRow_fits, kindRow_fits, header_inj]

theorem lookupRow_rst (a : BitVec 32) :
    lookupRow (header 4 a) = some (kindRow "RST" (header 4 0) false) := by
  unfold lookupRow
  rw [firstRows_eq]
  simp [exactRow_fits, kindRow_fits, header_inj]

theorem lookupRow_rstr (a : BitVec 32) :
    lookupRow (header 5 a) = some (kindRow "RSTR" (header 5 0) false) := by
  unfold lookupRow
  rw [firstRows_eq]
  simp [exactRow_fits, kindRow_fits, header_inj]

end Sys2Proof
end

