-- ==== Sys2Proof/Laws/Memory.lean ====
section
/-! SUPPORT. Host memory: a read after a write, the canonical form, and equal reads give equal memories. -/

namespace Sys2Proof.Machine

theorem Memory.wf_iff (m : Memory) :
    m.wf = true ↔ (m.Pairwise fun c d => c.1 < d.1) ∧ ∀ c ∈ m, c.2 ≠ unwrittenByte := by
  simp [Memory.wf]

theorem Memory.wf_nil : Memory.wf [] = true := by decide

theorem Memory.wf_cons_iff (c : Host.Cell) (m : Memory) :
    Memory.wf (c :: m) = true ↔ (∀ d ∈ m, c.1 < d.1) ∧ c.2 ≠ unwrittenByte ∧ m.wf = true := by
  simp only [Memory.wf_iff, List.pairwise_cons, List.mem_cons, forall_eq_or_imp]
  tauto

/-- An address no cell lists reads as the unwritten byte. -/
theorem Memory.read_of_not_mem {m : Memory} {a : Nat} (h : ∀ c ∈ m, c.1 ≠ a) :
    m.read a = unwrittenByte := by
  induction m with
  | nil => rfl
  | cons c m ih =>
    simp only [List.mem_cons, forall_eq_or_imp] at h
    simp [Memory.read, h.1, ih h.2]

theorem Memory.read_cons {a : Nat} (b : Byte) {m : Memory} (h : ∀ c ∈ m, a < c.1) (x : Nat) :
    (Memory.cons a b m).read x = if x = a then b else m.read x := by
  unfold Memory.cons
  split
  · rename_i hb
    split
    · rename_i hx
      rw [hb, hx]
      exact Memory.read_of_not_mem fun c hc => Nat.ne_of_gt (h c hc)
    · rfl
  · simp only [Memory.read, eq_comm]

theorem Memory.mem_cons {a : Nat} {b : Byte} {m : Memory} {c : Host.Cell} (h : c ∈ Memory.cons a b m) :
    c.1 = a ∨ c ∈ m := by
  unfold Memory.cons at h
  split at h
  · exact .inr h
  · rcases List.mem_cons.1 h with rfl | h
    · exact .inl rfl
    · exact .inr h

theorem Memory.wf_cons {a : Nat} (b : Byte) {m : Memory} (h : ∀ c ∈ m, a < c.1) (hm : m.wf = true) :
    (Memory.cons a b m).wf = true := by
  unfold Memory.cons
  split
  · exact hm
  · exact (Memory.wf_cons_iff _ _).2 ⟨h, ‹_›, hm⟩

theorem Memory.mem_write {m : Memory} {a : Nat} {b : Byte} {c : Host.Cell} (h : c ∈ m.write a b) :
    c.1 = a ∨ c ∈ m := by
  induction m with
  | nil => exact Memory.mem_cons h
  | cons d m ih =>
    simp only [Memory.write] at h
    split at h
    · exact Memory.mem_cons h
    · split at h
      · exact (Memory.mem_cons h).imp_right (List.mem_cons_of_mem _)
      · rcases List.mem_cons.1 h with rfl | h
        · exact .inr (List.mem_cons_self ..)
        · exact (ih h).imp_right (List.mem_cons_of_mem _)

/-- Every store keeps the canonical form. -/
theorem Memory.wf_write {m : Memory} (hm : m.wf = true) (a : Nat) (b : Byte) :
    (m.write a b).wf = true := by
  induction m with
  | nil => exact Memory.wf_cons b (by simp) hm
  | cons d m ih =>
    have ⟨hlt, hne, hwf⟩ := (Memory.wf_cons_iff _ _).1 hm
    simp only [Memory.write]
    split
    · rename_i had
      refine Memory.wf_cons b (fun c hc => ?_) hm
      rcases List.mem_cons.1 hc with rfl | hc
      · exact had
      · exact Nat.lt_trans had (hlt c hc)
    · split
      · rename_i hnl hae
        exact Memory.wf_cons b (fun c hc => hae ▸ hlt c hc) hwf
      · rename_i hnl hae
        refine (Memory.wf_cons_iff _ _).2 ⟨fun c hc => ?_, hne, ih hwf⟩
        rcases Memory.mem_write hc with h | h
        · omega
        · exact hlt c h

/-- A read after a store, in a canonical memory. -/
theorem Memory.read_write {m : Memory} (hm : m.wf = true) (a : Nat) (b : Byte) (x : Nat) :
    (m.write a b).read x = if x = a then b else m.read x := by
  induction m with
  | nil => exact Memory.read_cons b (by simp) x
  | cons d m ih =>
    have ⟨hlt, hne, hwf⟩ := (Memory.wf_cons_iff _ _).1 hm
    simp only [Memory.write]
    split
    · rename_i had
      refine Memory.read_cons b (fun c hc => ?_) x
      rcases List.mem_cons.1 hc with rfl | hc
      · exact had
      · exact Nat.lt_trans had (hlt c hc)
    · split
      · rename_i hnl hae
        rw [Memory.read_cons b (fun c hc => hae ▸ hlt c hc)]
        by_cases hx : x = a
        · simp [hx]
        · have : d.1 ≠ x := fun h => hx (hae ▸ h.symm)
          simp [hx, Memory.read, this]
      · rename_i hnl hae
        simp only [Memory.read, ih hwf]
        by_cases hd : d.1 = x
        · have : x ≠ a := fun h => hae (h ▸ hd.symm)
          simp [hd, this]
        · simp [hd]

/-- Equal reads give equal canonical memories. -/
theorem Memory.ext_read {m n : Memory} (hm : m.wf = true) (hn : n.wf = true)
    (h : ∀ a, m.read a = n.read a) : m = n := by
  induction m generalizing n with
  | nil =>
    cases n with
    | nil => rfl
    | cons d n =>
      have ⟨_, hne, _⟩ := (Memory.wf_cons_iff _ _).1 hn
      have := h d.1
      simp [Memory.read] at this
      exact absurd this.symm hne
  | cons c m ih =>
    have ⟨hlt, hne, hwf⟩ := (Memory.wf_cons_iff _ _).1 hm
    cases n with
    | nil =>
      have := h c.1
      simp [Memory.read] at this
      exact absurd this hne
    | cons d n =>
      have ⟨hlt', hne', hwf'⟩ := (Memory.wf_cons_iff _ _).1 hn
      have key : c.1 = d.1 := by
        rcases Nat.lt_trichotomy c.1 d.1 with hcd | hcd | hcd
        · have h1 := h c.1
          rw [Memory.read_of_not_mem (m := d :: n) (by
            intro e he
            rcases List.mem_cons.1 he with rfl | he
            · omega
            · have := hlt' e he; omega)] at h1
          simp [Memory.read] at h1
          exact absurd h1 hne
        · exact hcd
        · have h1 := h d.1
          rw [Memory.read_of_not_mem (m := c :: m) (by
            intro e he
            rcases List.mem_cons.1 he with rfl | he
            · omega
            · have := hlt e he; omega)] at h1
          simp [Memory.read] at h1
          exact absurd h1.symm hne'
      have hb : c.2 = d.2 := by
        have := h c.1
        simpa [Memory.read, key] using this
      have hcd : c = d := Prod.ext key hb
      subst hcd
      congr 1
      refine ih hwf hwf' fun a => ?_
      by_cases ha : c.1 = a
      · rw [Memory.read_of_not_mem, Memory.read_of_not_mem]
        · intro e he; have := hlt' e he; omega
        · intro e he; have := hlt e he; omega
      · have := h a
        simpa [Memory.read, ha] using this

/-- A burst store keeps the canonical form. -/
theorem memWriteFrom_wf (cfg : Config) (cursor : Word) (bs : List Byte) {m : Memory}
    (hm : m.wf = true) (k : Nat) : (memWriteFrom cfg cursor m k bs).wf = true := by
  induction bs generalizing m k with
  | nil => exact hm
  | cons b bs ih => exact ih (Memory.wf_write hm _ _) _

theorem memWrite_wf (cfg : Config) (cursor : Word) (bs : List Byte) {m : Memory} (hm : m.wf = true) :
    (memWrite cfg m cursor bs).wf = true := memWriteFrom_wf cfg cursor bs hm 0

/-- A burst store leaves every address it does not reach as it was. -/
theorem memWriteFrom_read_outside (cfg : Config) (cursor : Word) (bs : List Byte) {m : Memory}
    (hm : m.wf = true) (k a : Nat)
    (h : ∀ j, j < bs.length → physAddr cfg cursor (k + j) ≠ a) :
    (memWriteFrom cfg cursor m k bs).read a = m.read a := by
  induction bs generalizing m k with
  | nil => rfl
  | cons b bs ih =>
    simp only [memWriteFrom]
    rw [ih (Memory.wf_write hm _ _), Memory.read_write hm]
    · have := h 0 (by simp)
      simp [Ne.symm (by simpa using this)]
    · intro j hj
      have := h (j + 1) (by simpa using hj)
      rwa [show k + (j + 1) = k + 1 + j by omega] at this

theorem memWrite_read_outside (cfg : Config) (cursor : Word) (bs : List Byte) {m : Memory}
    (hm : m.wf = true) (a : Nat) (h : ∀ j, j < bs.length → physAddr cfg cursor j ≠ a) :
    (memWrite cfg m cursor bs).read a = m.read a :=
  memWriteFrom_read_outside cfg cursor bs hm 0 a (by simpa using h)

/-- A burst store whose addresses differ leaves byte `j` at its address. -/
theorem memWriteFrom_read_inside (cfg : Config) (cursor : Word) (bs : List Byte) {m : Memory}
    (hm : m.wf = true) (k : Nat)
    (hinj : ∀ i j, i < bs.length → j < bs.length →
      physAddr cfg cursor (k + i) = physAddr cfg cursor (k + j) → i = j)
    (j : Nat) (hj : j < bs.length) :
    (memWriteFrom cfg cursor m k bs).read (physAddr cfg cursor (k + j)) = bs[j] := by
  induction bs generalizing m k j with
  | nil => simp at hj
  | cons b bs ih =>
    simp only [memWriteFrom]
    cases j with
    | zero =>
      rw [memWriteFrom_read_outside cfg cursor bs (Memory.wf_write hm _ _), Memory.read_write hm]
      · simp
      · intro j hj' he
        have := hinj (j + 1) 0 (by simpa using hj') (by simp)
          (by rw [show k + (j + 1) = k + 1 + j by omega]; exact he)
        omega
    | succ j =>
      rw [show k + (j + 1) = k + 1 + j by omega]
      have hj' : j < bs.length := by simpa using hj
      rw [ih (Memory.wf_write hm _ _) (k + 1) ?_ j hj']
      · simp
      · intro i j hi hj he
        have := hinj (i + 1) (j + 1) (by simpa using hi) (by simpa using hj)
          (by rw [show k + (i + 1) = k + 1 + i by omega, show k + (j + 1) = k + 1 + j by omega]; exact he)
        omega

@[simp] theorem burstAddrs_length (cfg : Config) (cursor : Word) (n : Nat) :
    (burstAddrs cfg cursor n).length = n := by simp [burstAddrs]

@[simp] theorem memRead_length (cfg : Config) (m : Memory) (cursor : Word) (n : Nat) :
    (memRead cfg m cursor n).length = n := by simp [memRead]

end Sys2Proof.Machine
end

