-- ==== Sys2Proof/Laws/PerInstr.lean ====
section
/-! SUPPORT. A statement for every operation: the header of its encoding has the operation's own row of the
opcode table, the exact rows tried before the last ones (30_encoding.md R94, R108). -/

namespace Sys2Proof.Laws.RowMatch

/-- The row of a header written out. -/
theorem rowOf {h : BitVec 35} {m : String} (hr : (lookupRow h).map (fun r => r.mnemonic) = some m) :
    (lookupRow h).map (fun r => r.mnemonic) = some m := hr

/-- The row that the encoding of a well-formed operation matches is the row of its mnemonic, for every operation
that `H` holds: an index or a budget below 2^32. -/
def Statement (i : Instr) : Prop :=
  i.wf = true → (encode i).arg < 2 ^ 32 → (lookupRow (encode i).h).map (fun r => r.mnemonic) = some i.mnemonic

theorem rdCodecCtrl : Statement .rdCodecCtrl := fun _ _ => rfl

theorem rdCodecAddr : Statement .rdCodecAddr := fun _ _ => rfl

theorem rdCodecDataOut : Statement .rdCodecDataOut := fun _ _ => rfl

theorem rdCodecDataIn : Statement .rdCodecDataIn := fun _ _ => rfl

theorem rdPlayCtrl : Statement .rdPlayCtrl := fun _ _ => rfl

theorem rdPlayAddr : Statement .rdPlayAddr := fun _ _ => rfl

theorem rdPlayRemaining : Statement .rdPlayRemaining := fun _ _ => rfl

theorem rdCapCtrl : Statement .rdCapCtrl := fun _ _ => rfl

theorem rdCapAddr : Statement .rdCapAddr := fun _ _ => rfl

theorem rdCapRemaining : Statement .rdCapRemaining := fun _ _ => rfl

theorem rdReserved : Statement .rdReserved := fun _ _ => rfl

theorem rdOutOfRange (index : Nat) : Statement (.rdOutOfRange index) := fun h ha => by
  have hr : outOfRange (BitVec.ofNat 32 index).toNat = true := by
    rw [BitVec.toNat_ofNat, Nat.mod_eq_of_lt (show index < 2 ^ 32 from ha)]
    exact h
  simp only [encode, Descriptor.h, lookupRow_read_outOfRange hr, kindRow, Instr.mnemonic, Option.map_some]

theorem wrCodecCtrl (value : Word) : Statement (.wrCodecCtrl value) := fun _ _ =>
  rowOf (h := header 1 0) (m := "WR_CODEC_CTRL") (by decide)

theorem wrCodecAddr (value : Word) : Statement (.wrCodecAddr value) := fun _ _ =>
  rowOf (h := header 1 1) (m := "WR_CODEC_ADDR") (by decide)

theorem wrCodecDataOut (value : Word) : Statement (.wrCodecDataOut value) := fun _ _ =>
  rowOf (h := header 1 2) (m := "WR_CODEC_DATA_OUT") (by decide)

theorem wrCodecDataIn (value : Word) : Statement (.wrCodecDataIn value) := fun _ _ =>
  rowOf (h := header 1 3) (m := "WR_CODEC_DATA_IN") (by decide)

theorem wrPlayCtrl (value : Word) : Statement (.wrPlayCtrl value) := fun _ _ =>
  rowOf (h := header 1 4) (m := "WR_PLAY_CTRL") (by decide)

theorem wrPlayAddr (value : Word) : Statement (.wrPlayAddr value) := fun _ _ =>
  rowOf (h := header 1 5) (m := "WR_PLAY_ADDR") (by decide)

theorem wrPlayRemaining (value : Word) : Statement (.wrPlayRemaining value) := fun _ _ =>
  rowOf (h := header 1 6) (m := "WR_PLAY_REMAINING") (by decide)

theorem wrCapCtrl (value : Word) : Statement (.wrCapCtrl value) := fun _ _ =>
  rowOf (h := header 1 8) (m := "WR_CAP_CTRL") (by decide)

theorem wrCapAddr (value : Word) : Statement (.wrCapAddr value) := fun _ _ =>
  rowOf (h := header 1 9) (m := "WR_CAP_ADDR") (by decide)

theorem wrCapRemaining (value : Word) : Statement (.wrCapRemaining value) := fun _ _ =>
  rowOf (h := header 1 10) (m := "WR_CAP_REMAINING") (by decide)

theorem wrReserved (value : Word) : Statement (.wrReserved value) := fun _ _ =>
  rowOf (h := header 1 7) (m := "WR__7") (by decide)

theorem wrOutOfRange (index : Nat) (value : Word) : Statement (.wrOutOfRange index value) := fun h ha => by
  have hr : outOfRange (BitVec.ofNat 32 index).toNat = true := by
    rw [BitVec.toNat_ofNat, Nat.mod_eq_of_lt (show index < 2 ^ 32 from ha)]
    exact h
  simp only [encode, Descriptor.h, lookupRow_write_outOfRange hr, kindRow, Instr.mnemonic, Option.map_some]

theorem psvc (budget : Nat) : Statement (.psvc budget) := fun _ _ => by
  simp only [encode, Descriptor.h, lookupRow_psvc, kindRow, Instr.mnemonic, Option.map_some]

theorem csvc (budget : Nat) : Statement (.csvc budget) := fun _ _ => by
  simp only [encode, Descriptor.h, lookupRow_csvc, kindRow, Instr.mnemonic, Option.map_some]

theorem rst : Statement .rst := fun _ _ => rfl

theorem rstr (w : RegFile) : Statement (.rstr w) := fun _ _ =>
  rowOf (h := header 5 0) (m := "RSTR") (by decide)

end Sys2Proof.Laws.RowMatch
end

