-- ==== Sys2Proof/Laws/State.lean ====
section
/-! SUPPORT. One lemma per field per update of State, and the normal form of the shared operations: what
they emit is one `emit`, what they store is one `storeReg`. -/

namespace Sys2Proof.Machine

section Emit
variable (es : List Event) (s : State)
@[simp] theorem emit_regs : (emit es s).regs = s.regs := rfl
@[simp] theorem emit_playActive : (emit es s).playActive = s.playActive := rfl
@[simp] theorem emit_capActive : (emit es s).capActive = s.capActive := rfl
@[simp] theorem emit_mem : (emit es s).mem = s.mem := rfl
@[simp] theorem emit_cfg : (emit es s).cfg = s.cfg := rfl
@[simp] theorem emit_pending : (emit es s).pending = s.pending := rfl
@[simp] theorem emit_sinkAnswers : (emit es s).sinkAnswers = s.sinkAnswers := rfl
@[simp] theorem emit_sourceAnswers : (emit es s).sourceAnswers = s.sourceAnswers := rfl
@[simp] theorem emit_trace : (emit es s).trace = s.trace ++ es := rfl
@[simp] theorem emit_nil : emit [] s = s := by simp [emit]
@[simp] theorem emit_emit (fs : List Event) : emit fs (emit es s) = emit (es ++ fs) s := by simp [emit]
end Emit

section StoreReg
variable (r : Slot) (v : Word) (s : State)
@[simp] theorem storeReg_regs : (storeReg r v s).regs = s.regs.set r v := rfl
@[simp] theorem storeReg_playActive : (storeReg r v s).playActive = s.playActive := rfl
@[simp] theorem storeReg_capActive : (storeReg r v s).capActive = s.capActive := rfl
@[simp] theorem storeReg_mem : (storeReg r v s).mem = s.mem := rfl
@[simp] theorem storeReg_cfg : (storeReg r v s).cfg = s.cfg := rfl
@[simp] theorem storeReg_pending : (storeReg r v s).pending = s.pending := rfl
@[simp] theorem storeReg_sinkAnswers : (storeReg r v s).sinkAnswers = s.sinkAnswers := rfl
@[simp] theorem storeReg_sourceAnswers : (storeReg r v s).sourceAnswers = s.sourceAnswers := rfl
@[simp] theorem storeReg_trace : (storeReg r v s).trace = s.trace := rfl
end StoreReg

section Reevaluate
variable (s : State)
@[simp] theorem reevaluate_regs : (reevaluate s).regs = s.regs := rfl
@[simp] theorem reevaluate_playActive : (reevaluate s).playActive = s.regs.playCtrl.getLsbD 0 := rfl
@[simp] theorem reevaluate_capActive : (reevaluate s).capActive = s.regs.capCtrl.getLsbD 0 := rfl
@[simp] theorem reevaluate_mem : (reevaluate s).mem = s.mem := rfl
@[simp] theorem reevaluate_cfg : (reevaluate s).cfg = s.cfg := rfl
@[simp] theorem reevaluate_pending : (reevaluate s).pending = s.pending := rfl
@[simp] theorem reevaluate_sinkAnswers : (reevaluate s).sinkAnswers = s.sinkAnswers := rfl
@[simp] theorem reevaluate_sourceAnswers : (reevaluate s).sourceAnswers = s.sourceAnswers := rfl
@[simp] theorem reevaluate_trace : (reevaluate s).trace = s.trace := rfl
end Reevaluate

section Deactivate
variable (s : State)
@[simp] theorem deactivate_regs : (deactivate s).regs = s.regs := rfl
@[simp] theorem deactivate_playActive : (deactivate s).playActive = false := rfl
@[simp] theorem deactivate_capActive : (deactivate s).capActive = false := rfl
@[simp] theorem deactivate_mem : (deactivate s).mem = s.mem := rfl
@[simp] theorem deactivate_cfg : (deactivate s).cfg = s.cfg := rfl
@[simp] theorem deactivate_pending : (deactivate s).pending = s.pending := rfl
@[simp] theorem deactivate_sinkAnswers : (deactivate s).sinkAnswers = s.sinkAnswers := rfl
@[simp] theorem deactivate_sourceAnswers : (deactivate s).sourceAnswers = s.sourceAnswers := rfl
@[simp] theorem deactivate_trace : (deactivate s).trace = s.trace := rfl
end Deactivate

section HostStore
variable (a : Nat) (b : Byte) (s : State)
@[simp] theorem hostStore_regs : (hostStore a b s).regs = s.regs := rfl
@[simp] theorem hostStore_playActive : (hostStore a b s).playActive = s.playActive := rfl
@[simp] theorem hostStore_capActive : (hostStore a b s).capActive = s.capActive := rfl
@[simp] theorem hostStore_mem : (hostStore a b s).mem = s.mem.write a b := rfl
@[simp] theorem hostStore_cfg : (hostStore a b s).cfg = s.cfg := rfl
@[simp] theorem hostStore_pending : (hostStore a b s).pending = s.pending := rfl
@[simp] theorem hostStore_sinkAnswers : (hostStore a b s).sinkAnswers = s.sinkAnswers := rfl
@[simp] theorem hostStore_sourceAnswers : (hostStore a b s).sourceAnswers = s.sourceAnswers := rfl
@[simp] theorem hostStore_trace : (hostStore a b s).trace = s.trace := rfl
end HostStore

theorem pulse_eq_emit (l : Line) (s : State) : pulse l s = emit [.pulse l] s := rfl

theorem diag_eq_emit (c : DiagCode) (i : Nat) (s : State) : diag c i s = emit [.diag c i] s := rfl

theorem returnData_eq_emit (v : Word) (s : State) : returnData v s = emit [.readData v] s := rfl

theorem readReg_eq_emit (r : Slot) (s : State) : readReg r s = emit [.readData (s.regs.get r)] s := rfl

theorem reservedDiag_eq_emit (c : DiagCode) (s : State) :
    reservedDiag c s = emit (if s.cfg.diagOnReserved then [.diag c 7] else []) s := by
  unfold reservedDiag
  split <;> simp [diag]

/-- What a write to CODEC_CTRL pulses (41_register_write.md R141). -/
theorem codecPulse_eq_emit (v : Word) (s : State) :
    codecPulse v s =
      emit (if rqen v then [.pulse (if dir v then .codecRequest else .codecReply)] else []) s := by
  unfold codecPulse
  by_cases h : rqen v <;> simp [h, pulse]

/-- The completion check only ever emits the channel's pulse. -/
theorem complete_eq_emit (ch : Channel) (s : State) :
    complete ch s =
      emit (if enabled (s.regs.get ch.ctrl) ∧ s.regs.get ch.remaining = 0 then [.pulse ch.doneLine]
        else []) s := by
  unfold complete
  split <;> simp [pulse]

/-- The commit writes ADDR and REMAINING and nothing else. -/
theorem commit_eq (ch : Channel) (n : Nat) (s : State) :
    commit ch n s =
      { s with
        regs := (s.regs.set ch.addr (s.regs.get ch.addr + BitVec.ofNat 32 n)).set ch.remaining
          (s.regs.get ch.remaining - BitVec.ofNat 32 n) } := by
  cases ch <;> rfl

end Sys2Proof.Machine
end

