-- ==== Sys2Proof/Laws/Service.lean ====
section
/-! SUPPORT. What one run of each chunk loop can do, said once, and the bounds that follow from it. -/

namespace Sys2Proof.Machine

theorem chunkSize_le (cfg : Config) (w d : Nat) : chunkSize cfg w d ≤ w - d := Nat.min_le_right _ _

theorem chunkSize_le_staging (cfg : Config) (w d : Nat) : chunkSize cfg w d ≤ cfg.stagingBytes :=
  Nat.min_le_left _ _

/-- A chunk is never empty while bytes are wanted: STAGING_BYTES is at least 1 (00_scope.md R10). -/
theorem chunkSize_pos {cfg : Config} {w d : Nat} (h : d < w) : 0 < chunkSize cfg w d := by
  have := cfg.stagingBytes.pos
  simp only [chunkSize, lt_min_iff]
  omega

theorem taken_le (a c : Nat) : taken a c ≤ c := Nat.min_le_right _ _

theorem produced_length_le (b : List Byte) (c : Nat) : (produced b c).length ≤ c := by
  simp [produced]

/-- The offer one iteration of the playback loop makes (42_playback_dma.md R172). -/
def playOffer (cfg : Config) (mem : Memory) (base : Word) (want done a : Nat) : Event :=
  .offer (localCursor base done)
    (memRead cfg mem (localCursor base done) (chunkSize cfg want done))
    (taken a (chunkSize cfg want done))

/-- Everything one pass of the playback loop can do when it is not refused: it is over, it stops at a zero
answer, or it moves bytes and goes on. -/
theorem playLoop_ok_cases {cfg : Config} {mem : Memory} {base : Word} {want done : Nat}
    {answers : List Nat} {run : PlayRun} (h : playLoop cfg mem base want answers done = .ok run) :
    (want ≤ done ∧ run = ⟨done, answers, []⟩) ∨
    (done < want ∧ burstRefusal cfg .play (localCursor base done) (chunkSize cfg want done) = none ∧
      taken (answers.headD 0) (chunkSize cfg want done) = 0 ∧
      run = ⟨done, answers.tail, [playOffer cfg mem base want done (answers.headD 0)]⟩) ∨
    (∃ a rest run', done < want ∧
      burstRefusal cfg .play (localCursor base done) (chunkSize cfg want done) = none ∧
      0 < taken a (chunkSize cfg want done) ∧ answers = a :: rest ∧
      playLoop cfg mem base want rest (done + taken a (chunkSize cfg want done)) = .ok run' ∧
      run = run'.after (playOffer cfg mem base want done a)) := by
  unfold playLoop at h
  split at h
  · rename_i hle
    exact .inl ⟨hle, by cases h; rfl⟩
  · rename_i hlt
    split at h
    · cases h
    · rename_i hr
      split at h
      · refine .inr (.inl ⟨by omega, hr, by simp [taken], ?_⟩)
        cases h
        simp [playOffer, taken]
      · rename_i a rest
        split at h
        · rename_i h0
          refine .inr (.inl ⟨by omega, hr, h0, ?_⟩)
          cases h
          simp [playOffer, h0]
        · rename_i h0
          match hl : playLoop cfg mem base want rest (done + taken a (chunkSize cfg want done)) with
          | .error r => rw [hl] at h; cases h
          | .ok run' =>
            rw [hl] at h
            refine .inr (.inr ⟨a, rest, run', by omega, hr, Nat.pos_of_ne_zero h0, rfl, hl, ?_⟩)
            cases h
            rfl

/-- The bytes a playback loop moves lie between what was moved before and `want`. -/
theorem playLoop_done_le {cfg : Config} {mem : Memory} {base : Word} {want : Nat} (answers : List Nat)
    {done : Nat} {run : PlayRun} (h : playLoop cfg mem base want answers done = .ok run)
    (hd : done ≤ want) : done ≤ run.done ∧ run.done ≤ want := by
  induction answers generalizing done run with
  | nil =>
    rcases playLoop_ok_cases h with ⟨_, rfl⟩ | ⟨_, _, _, rfl⟩ | ⟨a, rest, run', _, _, _, hc, _⟩
    · exact ⟨Nat.le_refl _, hd⟩
    · exact ⟨Nat.le_refl _, hd⟩
    · cases hc
  | cons a rest ih =>
    rcases playLoop_ok_cases h with ⟨_, rfl⟩ | ⟨_, _, _, rfl⟩ | ⟨a, rest', run', hlt, _, _, hc, hl, rfl⟩
    · exact ⟨Nat.le_refl _, hd⟩
    · exact ⟨Nat.le_refl _, hd⟩
    · cases hc
      have hk := taken_le a (chunkSize cfg want done)
      have hc := chunkSize_le cfg want done
      have := ih hl (by omega)
      simp only [PlayRun.after]
      omega

/-- A configuration that allows every burst refuses none. -/
theorem burstRefusal_eq_none {cfg : Config}
    (h : cfg.burstWrap = .wrap ∧ cfg.windowBase = none ∧ cfg.readSideEffects = []) (ch : Channel)
    (cursor : Word) (n : Nat) : burstRefusal cfg ch cursor n = none := by
  simp [burstRefusal, touchesWindow, h.1, h.2.1, h.2.2]

/-- Where no burst it may make is refused the playback loop always comes to an end. -/
theorem playLoop_ok {cfg : Config} {base : Word} {want : Nat}
    (hc : ∀ d < want, ∀ k ≤ chunkSize cfg want d, burstRefusal cfg .play (localCursor base d) k = none)
    (mem : Memory) (answers : List Nat) (done : Nat) :
    ∃ run, playLoop cfg mem base want answers done = .ok run := by
  induction answers generalizing done with
  | nil =>
    unfold playLoop
    split
    · exact ⟨_, rfl⟩
    · simp only [hc done (by omega) _ (Nat.le_refl _)]
      exact ⟨_, rfl⟩
  | cons a rest ih =>
    unfold playLoop
    split
    · exact ⟨_, rfl⟩
    · simp only [hc done (by omega) _ (Nat.le_refl _)]
      split
      · exact ⟨_, rfl⟩
      · obtain ⟨run, hr⟩ := ih (done + taken a (chunkSize cfg want done))
        exact ⟨_, by rw [hr]; rfl⟩

/-- The pull one iteration of the capture loop makes (43_capture_dma.md R192). -/
def capPull (cfg : Config) (want done : Nat) (burst : List Byte) : Event :=
  .pull (chunkSize cfg want done) (produced burst (chunkSize cfg want done))

/-- Everything one pass of the capture loop can do when it is not refused: it is over, it stops at an
empty burst, or it stores bytes and goes on. -/
theorem capLoop_ok_cases {cfg : Config} {mem : Memory} {base : Word} {want done : Nat}
    {answers : List (List Byte)} {run : CapRun}
    (h : capLoop cfg base want answers mem done = .ok run) :
    (want ≤ done ∧ run = ⟨done, mem, answers, []⟩) ∨
    (done < want ∧ produced (answers.headD []) (chunkSize cfg want done) = [] ∧
      run = ⟨done, mem, answers.tail, [capPull cfg want done (answers.headD [])]⟩) ∨
    (∃ burst rest run', done < want ∧
      0 < (produced burst (chunkSize cfg want done)).length ∧
      burstRefusal cfg .cap (localCursor base done)
        (produced burst (chunkSize cfg want done)).length = none ∧
      answers = burst :: rest ∧
      capLoop cfg base want rest
        (memWrite cfg mem (localCursor base done) (produced burst (chunkSize cfg want done)))
        (done + (produced burst (chunkSize cfg want done)).length) = .ok run' ∧
      run = run'.after (capPull cfg want done burst)) := by
  unfold capLoop at h
  split at h
  · rename_i hle
    exact .inl ⟨hle, by cases h; rfl⟩
  · rename_i hlt
    split at h
    · refine .inr (.inl ⟨by omega, by simp [produced], ?_⟩)
      cases h
      simp [capPull, produced]
    · rename_i burst rest
      split at h
      · rename_i h0
        have h0' := List.length_eq_zero_iff.1 h0
        refine .inr (.inl ⟨by omega, h0', ?_⟩)
        cases h
        simp [capPull, h0']
      · rename_i h0
        split at h
        · cases h
        · rename_i hr
          match hl : capLoop cfg base want rest
              (memWrite cfg mem (localCursor base done) (produced burst (chunkSize cfg want done)))
              (done + (produced burst (chunkSize cfg want done)).length) with
          | .error r => rw [hl] at h; cases h
          | .ok run' =>
            rw [hl] at h
            refine .inr (.inr ⟨burst, rest, run', by omega, Nat.pos_of_ne_zero h0, hr, rfl, hl, ?_⟩)
            cases h
            rfl

/-- The bytes a capture loop moves lie between what was moved before and `want`. -/
theorem capLoop_done_le {cfg : Config} {base : Word} {want : Nat} (answers : List (List Byte))
    {mem : Memory} {done : Nat} {run : CapRun} (h : capLoop cfg base want answers mem done = .ok run)
    (hd : done ≤ want) : done ≤ run.done ∧ run.done ≤ want := by
  induction answers generalizing mem done run with
  | nil =>
    rcases capLoop_ok_cases h with ⟨_, rfl⟩ | ⟨_, _, rfl⟩ | ⟨b, rest, run', _, _, _, hc, _⟩
    · exact ⟨Nat.le_refl _, hd⟩
    · exact ⟨Nat.le_refl _, hd⟩
    · cases hc
  | cons b rest ih =>
    rcases capLoop_ok_cases h with ⟨_, rfl⟩ | ⟨_, _, rfl⟩ | ⟨b, rest', run', hlt, _, _, hc, hl, rfl⟩
    · exact ⟨Nat.le_refl _, hd⟩
    · exact ⟨Nat.le_refl _, hd⟩
    · cases hc
      have hk := produced_length_le b (chunkSize cfg want done)
      have hc := chunkSize_le cfg want done
      have := ih hl (by omega)
      simp only [CapRun.after]
      omega

/-- The capture loop keeps host memory canonical. -/
theorem capLoop_wf {cfg : Config} {base : Word} {want : Nat} (answers : List (List Byte))
    {mem : Memory} {done : Nat} {run : CapRun} (h : capLoop cfg base want answers mem done = .ok run)
    (hm : mem.wf = true) : run.mem.wf = true := by
  induction answers generalizing mem done run with
  | nil =>
    rcases capLoop_ok_cases h with ⟨_, rfl⟩ | ⟨_, _, rfl⟩ | ⟨b, rest, run', _, _, _, hc, _⟩
    · exact hm
    · exact hm
    · cases hc
  | cons b rest ih =>
    rcases capLoop_ok_cases h with ⟨_, rfl⟩ | ⟨_, _, rfl⟩ | ⟨b, rest', run', hlt, _, _, hc, hl, rfl⟩
    · exact hm
    · exact hm
    · cases hc
      have := ih hl (memWrite_wf _ _ _ hm)
      exact this

/-- Where no burst it may make is refused the capture loop always comes to an end. -/
theorem capLoop_ok {cfg : Config} {base : Word} {want : Nat}
    (hc : ∀ d < want, ∀ k ≤ chunkSize cfg want d, burstRefusal cfg .cap (localCursor base d) k = none)
    (answers : List (List Byte)) (mem : Memory) (done : Nat) :
    ∃ run, capLoop cfg base want answers mem done = .ok run := by
  induction answers generalizing mem done with
  | nil =>
    unfold capLoop
    split <;> exact ⟨_, rfl⟩
  | cons b rest ih =>
    unfold capLoop
    split
    · exact ⟨_, rfl⟩
    · dsimp only
      split
      · exact ⟨_, rfl⟩
      · rw [hc done (by omega) _ (produced_length_le b _)]
        obtain ⟨run, hr⟩ := ih
          (memWrite cfg mem (localCursor base done) (produced b (chunkSize cfg want done)))
          (done + (produced b (chunkSize cfg want done)).length)
        exact ⟨_, by rw [hr]; rfl⟩

/-- Everything PSVC can do when it answers a next state (42_playback_dma.md R170). -/
theorem execPsvc_next {b : Nat} {s t : State} (h : execPsvc b s = .next t) :
    (want .play b s = 0 ∧ t = s) ∨
    (want .play b s ≠ 0 ∧ ∃ run, run.done ≤ want .play b s ∧
      playLoop s.cfg s.mem (s.regs.get .playAddr) (want .play b s) s.sinkAnswers 0 = .ok run ∧
      t = playFinish s run) := by
  unfold execPsvc at h
  split at h
  · cases h
    exact .inl ⟨‹_›, rfl⟩
  · split at h
    · cases h
    · rename_i hw _ run hr
      cases h
      exact .inr ⟨hw, run, (playLoop_done_le _ hr (Nat.zero_le _)).2, hr, rfl⟩

/-- Everything CSVC can do when it answers a next state (43_capture_dma.md R190). -/
theorem execCsvc_next {b : Nat} {s t : State} (h : execCsvc b s = .next t) :
    (want .cap b s = 0 ∧ t = s) ∨
    (want .cap b s ≠ 0 ∧ ∃ run, run.done ≤ want .cap b s ∧
      capLoop s.cfg (s.regs.get .capAddr) (want .cap b s) s.sourceAnswers s.mem 0 = .ok run ∧
      t = capFinish s run) := by
  unfold execCsvc at h
  split at h
  · cases h
    exact .inl ⟨‹_›, rfl⟩
  · split at h
    · cases h
    · rename_i hw _ run hr
      cases h
      exact .inr ⟨hw, run, (capLoop_done_le _ hr (Nat.zero_le _)).2, hr, rfl⟩

/-- The state PSVC leaves, field by field. -/
theorem playFinish_eq (s : State) (run : PlayRun) :
    playFinish s run =
      { s with
        regs := { s.regs with
                  playAddr := s.regs.playAddr + BitVec.ofNat 32 run.done
                  playRemaining := s.regs.playRemaining - BitVec.ofNat 32 run.done }
        sinkAnswers := run.answers
        trace := s.trace ++ run.offers ++
          (if s.regs.playCtrl.getLsbD 0 ∧ s.regs.playRemaining - BitVec.ofNat 32 run.done = 0 then
            [.pulse .playDone] else []) } := by
  unfold playFinish
  rw [complete_eq_emit, commit_eq]
  rfl

/-- The state CSVC leaves, field by field. -/
theorem capFinish_eq (s : State) (run : CapRun) :
    capFinish s run =
      { s with
        regs := { s.regs with
                  capAddr := s.regs.capAddr + BitVec.ofNat 32 run.done
                  capRemaining := s.regs.capRemaining - BitVec.ofNat 32 run.done }
        mem := run.mem
        sourceAnswers := run.answers
        trace := s.trace ++ run.pulls ++
          (if s.regs.capCtrl.getLsbD 0 ∧ s.regs.capRemaining - BitVec.ofNat 32 run.done = 0 then
            [.pulse .capDone] else []) } := by
  unfold capFinish
  rw [complete_eq_emit, commit_eq]
  rfl

end Sys2Proof.Machine
end

