-- ==== Sys2Proof/Laws/Step.lean ====
section
/-! SUPPORT. What one step can do, said once, and what each meaning answers, in the state's own fields. -/

namespace Sys2Proof.Machine

/-- Everything a step can do when it answers a next state. -/
theorem step_next_cases {s t : State} (h : step s = .next t) :
    (s.pending = [] ∧ t = s) ∨
    (∃ a b rest, s.pending = .hostStore a b :: rest ∧ t = hostStore a b { s with pending := rest }) ∨
    (∃ d rest i, s.pending = .op d :: rest ∧ decode d = .ok i ∧ issueRefusal d i s = none ∧
      exec i { s with pending := rest } = .next t) := by
  unfold step at h
  split at h
  · cases h
    exact .inl ⟨‹_›, rfl⟩
  · rename_i a b rest hp
    cases h
    exact .inr (.inl ⟨a, b, rest, hp, rfl⟩)
  · rename_i d rest hp
    split at h
    · cases h
    · rename_i i hd
      split at h
      · cases h
      · rename_i hi
        exact .inr (.inr ⟨d, rest, i, hp, hd, hi, h⟩)

/-- A property of states that every operation, every host store and every taking of an input keeps is kept
by every step. -/
theorem step_keeps {P : State → Prop} (hpend : ∀ s rest, P s → P { s with pending := rest })
    (hstore : ∀ s a b, P s → P (hostStore a b s)) (hexec : ∀ i s t, P s → exec i s = .next t → P t)
    {s t : State} (hs : P s) (h : step s = .next t) : P t := by
  rcases step_next_cases h with ⟨_, rfl⟩ | ⟨a, b, rest, _, rfl⟩ | ⟨d, rest, i, _, _, _, he⟩
  · exact hs
  · exact hstore _ _ _ (hpend _ _ hs)
  · exact hexec i _ _ (hpend _ _ hs) he

/-- A property every step keeps holds after any number of steps. -/
theorem run_keeps {P : State → Prop} (hstep : ∀ s t, P s → step s = .next t → P t) (n : Nat) {s t : State}
    (hs : P s) (h : Sys2Proof.core.run n s = .next t) : P t := by
  induction n generalizing s with
  | zero => cases h; exact hs
  | succ n ih =>
    simp only [Host.Core.run] at h
    split at h
    · rename_i s' hs'
      exact ih (hstep _ _ hs hs') h
    · cases h
    · cases h

/-- Parameters that refuse no burst refuse none that a service may make. -/
theorem burstsClear_of_allowed {s : State} (h : BurstsAllowed s.cfg) (ch : Channel) (budget : Nat) :
    BurstsClear ch budget s := fun _ _ _ _ => burstRefusal_eq_none h _ _ _

/-- PSVC completes wherever no burst it may make is refused. -/
theorem execPsvc_ok {b : Nat} {s : State} (h : BurstsClear .play b s) : ∃ t, execPsvc b s = .next t := by
  obtain ⟨run, hr⟩ := playLoop_ok h s.mem s.sinkAnswers 0
  change playLoop s.cfg s.mem (s.regs.get .playAddr) _ _ _ = _ at hr
  unfold execPsvc
  rw [hr]
  split <;> exact ⟨_, rfl⟩

/-- CSVC completes wherever no burst it may make is refused. -/
theorem execCsvc_ok {b : Nat} {s : State} (h : BurstsClear .cap b s) : ∃ t, execCsvc b s = .next t := by
  obtain ⟨run, hr⟩ := capLoop_ok h s.sourceAnswers s.mem 0
  change capLoop s.cfg (s.regs.get .capAddr) _ _ _ _ = _ at hr
  unfold execCsvc
  rw [hr]
  split <;> exact ⟨_, rfl⟩

/-- A register access is no service operation. -/
theorem servicedChannel_readAt (a : Nat) : servicedChannel (.readAt a) = none := by
  unfold Instr.readAt
  split
  · rename_i r _
    cases r <;> rfl
  · rfl

theorem servicedChannel_writeAt (a : Nat) (v : Word) : servicedChannel (.writeAt a v) = none := by
  unfold Instr.writeAt
  split
  · rename_i r _
    cases r <;> rfl
  · rfl

/-- A descriptor of the 35-bit form has an `arg` of 32 bits. -/
theorem ofH_arg_lt (h : BitVec 35) (p : List Word) : (Descriptor.ofH h p).arg < 2 ^ 32 :=
  (h.extractLsb' 0 32).isLt

/-- With an `arg` of 32 bits a descriptor may be issued under the parameters that admit it. -/
theorem argFits_admitting {d : Descriptor} {cfg : Config} (ha : d.arg < 2 ^ 32) :
    d.argFits (admitting d cfg) = true := by
  have hb (n : Nat) : d.arg < 2 ^ max n 32 :=
    Nat.lt_of_lt_of_le ha (Nat.pow_le_pow_right (by decide) (Nat.le_max_right n 32))
  unfold Descriptor.argFits admitting
  split <;> simp only [hb, decide_true]

/-- A table word placed as the next input runs as the very next operation, whatever its kind (log entry 12). -/
theorem step_withFetchWord {s : State} {nbits w : Nat} {i : Instr} (h : decodeTableWord nbits w = some i) :
    step (s.withFetchWord nbits w) =
      exec i { s with cfg := admitting (tableDescriptor nbits w) s.cfg } := by
  unfold decodeTableWord at h
  split at h
  · rename_i j hd
    cases h
    have hi : issueRefusal (tableDescriptor nbits w) i (s.withFetchWord nbits w) = none := by
      generalize hs : s.withFetchWord nbits w = t
      have hc : t.cfg = admitting (tableDescriptor nbits w) s.cfg := by rw [← hs]; rfl
      have hf : (tableDescriptor nbits w).argFits t.cfg = true := by
        rw [hc]
        exact argFits_admitting (ofH_arg_lt _ _)
      unfold issueRefusal
      rw [hf, if_neg (by decide)]
      rcases decode_ok_cases hd with ⟨a, _, rfl⟩ | ⟨a, v, _, rfl⟩ | ⟨a, hk, rfl⟩ | ⟨a, hk, rfl⟩ |
        ⟨a, _, rfl⟩ | ⟨a, v, _, rfl⟩
      · simp [servicedChannel_readAt]
      · simp [servicedChannel_writeAt]
      · rw [hk] at hc
        simp [servicedChannel, hc, admitting, isServiceKind]
      · rw [hk] at hc
        simp [servicedChannel, hc, admitting, isServiceKind]
      · rfl
      · rfl
    unfold step
    have hp : (s.withFetchWord nbits w).pending = .op (tableDescriptor nbits w) :: s.pending := rfl
    simp only [hp, hd, hi]
    rfl
  · cases h

end Sys2Proof.Machine
end

