-- ==== Sys2Proof/Tests/Slice0.lean ====
section
/-! SUPPORT. Tests, each of one operation or one step on a small state, and a witness for the hypotheses of
every obligation that has any. The expected values of the tests are those of spec/95_test_vectors.md (named
by their ids) or of the examples inside the rules; none was taken from the model. -/

namespace Sys2Proof.Tests

open Sys2Proof.Machine

/-- The next state of an outcome. -/
def after : Host.Outcome State Fault Refusal → Option State
  | .next t => some t
  | .fault _ | .refused _ => none

/-- The refusal of an outcome. -/
def refusal : Host.Outcome State Fault Refusal → Option Refusal
  | .refused r => some r
  | .next _ | .fault _ => none

/-- The words of the state after, and what the operation put out. -/
def result (o : Host.Outcome State Fault Refusal) : Option (RegFile × List Event) :=
  (after o).map fun t => (t.regs, t.trace)

/-- A state with the given words, its stream flags as a re-evaluation sets them. -/
def start (x : RegFile) : State := reevaluate { State.reset with regs := x }

/-- A start state of 95_test_vectors.md section 2.4, with the sink's answers. -/
def playing (ctrl addr remaining : Word) (answers : List Nat) : State :=
  { start { RegFile.zero with playCtrl := ctrl, playAddr := addr, playRemaining := remaining } with
    sinkAnswers := answers }

/-- A start state of 95_test_vectors.md section 2.5, with the source's bursts. -/
def capturing (ctrl addr remaining : Word) (bursts : List (List Byte)) : State :=
  { start { RegFile.zero with capCtrl := ctrl, capAddr := addr, capRemaining := remaining } with
    sourceAnswers := bursts }

/-- What a playback service left: PLAY_ADDR and PLAY_REMAINING, the offers as size, cursor and answer, and the
pulses. -/
structure Played where
  addr : Word
  remaining : Word
  offers : List (Nat × Word × Nat)
  pulses : List Line
  deriving DecidableEq, Repr

/-- The size, cursor and answer of an event that is an offer. -/
def offerOf : Event → Option (Nat × Word × Nat)
  | .offer cursor bytes taken => some (bytes.length, cursor, taken)
  | .readData _ | .pulse _ | .diag _ _ | .pull _ _ => none

def played (o : Host.Outcome State Fault Refusal) : Option Played :=
  (after o).map fun t => ⟨t.regs.playAddr, t.regs.playRemaining, t.trace.filterMap offerOf, pulses t.trace⟩

/-- What a capture service left: CAP_ADDR and CAP_REMAINING, host memory, the pulls as size and count, and the
pulses. -/
structure Captured where
  addr : Word
  remaining : Word
  mem : Memory
  pulls : List (Nat × Nat)
  pulses : List Line
  deriving DecidableEq, Repr

def pulledOf (o : Host.Outcome State Fault Refusal) : Option Captured :=
  (after o).map fun t =>
    ⟨t.regs.capAddr, t.regs.capRemaining, t.mem, t.trace.filterMap Event.pulled, pulses t.trace⟩

/-! ### Well-formedness -/

theorem test_wf_refuses_named_index_as_out_of_range_read : (Instr.rdOutOfRange 10).wf = false := by decide

theorem test_wf_refuses_reserved_index_as_out_of_range_read : (Instr.rdOutOfRange 7).wf = false := by decide

theorem test_wf_refuses_named_index_as_out_of_range_write : (Instr.wrOutOfRange 0 5).wf = false := by decide

/-! ### Decoding: words written out from 30_encoding.md R92 to R94, and the rows of 95_test_vectors.md 2.1 -/

theorem test_decode_codec_reads :
    decode (.ofH 0x000000000#35 []) = .ok .rdCodecCtrl ∧ decode (.ofH 0x000000001#35 []) = .ok .rdCodecAddr ∧
    decode (.ofH 0x000000002#35 []) = .ok .rdCodecDataOut ∧
    decode (.ofH 0x000000003#35 []) = .ok .rdCodecDataIn := ⟨rfl, rfl, rfl, rfl⟩

theorem test_decode_dma_reads :
    decode (.ofH 0x000000004#35 []) = .ok .rdPlayCtrl ∧ decode (.ofH 0x000000005#35 []) = .ok .rdPlayAddr ∧
    decode (.ofH 0x000000006#35 []) = .ok .rdPlayRemaining ∧ decode (.ofH 0x000000008#35 []) = .ok .rdCapCtrl ∧
    decode (.ofH 0x000000009#35 []) = .ok .rdCapAddr ∧ decode (.ofH 0x00000000A#35 []) = .ok .rdCapRemaining :=
  ⟨rfl, rfl, rfl, rfl, rfl, rfl⟩

theorem test_decode_unknown_reads :
    decode (.ofH 0x000000007#35 []) = .ok .rdReserved ∧ decode (.ofH 0x00000000B#35 []) = .ok (.rdOutOfRange 11) ∧
    decode (.ofH 0x0FFFFFFFF#35 []) = .ok (.rdOutOfRange 4294967295) := ⟨rfl, rfl, rfl⟩

theorem test_decode_codec_writes :
    decode (.ofH 0x100000000#35 [3]) = .ok (.wrCodecCtrl 3) ∧
    decode (.ofH 0x100000001#35 [0x1A]) = .ok (.wrCodecAddr 0x1A) ∧
    decode (.ofH 0x100000002#35 [0xBEEF]) = .ok (.wrCodecDataOut 0xBEEF) ∧
    decode (.ofH 0x100000003#35 [0x1234]) = .ok (.wrCodecDataIn 0x1234) := ⟨rfl, rfl, rfl, rfl⟩

theorem test_decode_dma_writes :
    decode (.ofH 0x100000004#35 [1]) = .ok (.wrPlayCtrl 1) ∧
    decode (.ofH 0x100000005#35 [0x1000]) = .ok (.wrPlayAddr 0x1000) ∧
    decode (.ofH 0x100000006#35 [0x2710]) = .ok (.wrPlayRemaining 10000) ∧
    decode (.ofH 0x100000008#35 [1]) = .ok (.wrCapCtrl 1) ∧
    decode (.ofH 0x100000009#35 [0xFFFFFFF0]) = .ok (.wrCapAddr 0xFFFFFFF0) ∧
    decode (.ofH 0x10000000A#35 [0x20]) = .ok (.wrCapRemaining 32) := ⟨rfl, rfl, rfl, rfl, rfl, rfl⟩

theorem test_decode_unknown_writes :
    decode (.ofH 0x100000007#35 [0xDEADBEEF]) = .ok (.wrReserved 0xDEADBEEF) ∧
    decode (.ofH 0x10000000B#35 [1]) = .ok (.wrOutOfRange 11 1) ∧
    decode (.ofH 0x100000010#35 [1]) = .ok (.wrOutOfRange 16 1) := ⟨rfl, rfl, rfl⟩

theorem test_decode_events :
    decode (.ofH 0x200001770#35 []) = .ok (.psvc 6000) ∧ decode (.ofH 0x200000000#35 []) = .ok (.psvc 0) ∧
    decode (.ofH 0x300000010#35 []) = .ok (.csvc 16) ∧ decode (.ofH 0x400000000#35 []) = .ok .rst ∧
    decode (.ofH 0x400000005#35 []) = .ok .rst ∧
    decode (.ofH 0x500000000#35 [2, 0, 0, 0, 1, 0x3000, 0x100, 0x55, 0, 0, 0]) =
      .ok (.rstr ⟨2, 0, 0, 0, 1, 0x3000, 0x100, 0x55, 0, 0, 0⟩) := ⟨rfl, rfl, rfl, rfl, rfl, rfl⟩

/-- The two rejected rows of 95_test_vectors.md 2.1. -/
theorem test_decode_rejects_unassigned_kinds :
    decode (.ofH 0x600000000#35 []) = .error (.unassignedKind 6) ∧
    decode (.ofH 0x700000000#35 [1]) = .error (.unassignedKind 7) := ⟨rfl, rfl⟩

/-- 30_encoding.md R92: the payload a kind has, no other. -/
theorem test_decode_rejects_wrong_payload :
    decode (.ofH 0x100000000#35 []) = .error (.payloadLength 1 0) ∧
    decode (.ofH 0x000000000#35 [1]) = .error (.payloadLength 0 1) ∧
    decode (.ofH 0x500000000#35 [0, 0, 0]) = .error (.payloadLength 11 3) := ⟨rfl, rfl, rfl⟩

/-- A table word of 40 bits leaves the payload words 0; a longer one carries them (log entry 12). -/
theorem test_decode_table_words :
    decodeTableWord 40 0x100000004 = some (.wrPlayCtrl 0) ∧
    decodeTableWord 72 (0x100000004 + 0x80000001 * 2 ^ 40) = some (.wrPlayCtrl 0x80000001) ∧
    decodeTableWord 40 0x500000000 = some (.rstr RegFile.zero) ∧
    decodeTableWord 40 0x600000000 = none := ⟨rfl, rfl, rfl, rfl⟩

/-! ### Register reads (95_test_vectors.md 2.2 and the examples of 40_register_read.md) -/

/-- Words that are all different, to see which one a read returns. -/
def distinct : RegFile := ⟨0x10, 0x11, 0x12, 0x13, 0x14, 0x15, 0x16, 0x17, 0x18, 0x19, 0x1A⟩

theorem test_rd_codec_words :
    result (exec .rdCodecCtrl (start distinct)) = some (distinct, [.readData 0x10]) ∧
    result (exec .rdCodecAddr (start distinct)) = some (distinct, [.readData 0x11]) ∧
    result (exec .rdCodecDataOut (start distinct)) = some (distinct, [.readData 0x12]) ∧
    result (exec .rdCodecDataIn (start distinct)) = some (distinct, [.readData 0x13]) := by decide

theorem test_rd_play_words :
    result (exec .rdPlayCtrl (start distinct)) = some (distinct, [.readData 0x14]) ∧
    result (exec .rdPlayAddr (start distinct)) = some (distinct, [.readData 0x15]) ∧
    result (exec .rdPlayRemaining (start distinct)) = some (distinct, [.readData 0x16]) := by decide

theorem test_rd_cap_words :
    result (exec .rdCapCtrl (start distinct)) = some (distinct, [.readData 0x18]) ∧
    result (exec .rdCapAddr (start distinct)) = some (distinct, [.readData 0x19]) ∧
    result (exec .rdCapRemaining (start distinct)) = some (distinct, [.readData 0x1A]) := by decide

/-- VR5: the stored word 7 is not returned. -/
theorem test_rd_reserved_hides_the_word :
    result (exec .rdReserved (start distinct)) = some (distinct, [.readData 0, .diag .unknownRead 7]) := by
  decide

/-- VR2'. -/
theorem test_rd_reserved_without_diagnostic :
    result (exec .rdReserved
      { State.reset with cfg := { Config.default with diagOnReserved := false } }) =
      some (RegFile.zero, [.readData 0]) := by decide

/-- VR3, VR4. -/
theorem test_rd_out_of_range :
    result (exec (.rdOutOfRange 11) State.reset) =
      some (RegFile.zero, [.readData 0, .diag .unknownRead 11]) ∧
    result (exec (.rdOutOfRange 4294967295) State.reset) =
      some (RegFile.zero, [.readData 0, .diag .unknownRead 4294967295]) := by decide

/-! ### Register writes (95_test_vectors.md 2.3) -/

/-- VW1 to VW4. -/
theorem test_wr_codec_ctrl_low_bits :
    result (exec (.wrCodecCtrl 0) State.reset) = some (RegFile.zero, []) ∧
    result (exec (.wrCodecCtrl 1) State.reset) = some (RegFile.zero, [.pulse .codecReply]) ∧
    result (exec (.wrCodecCtrl 2) State.reset) = some ({ RegFile.zero with codecCtrl := 2 }, []) ∧
    result (exec (.wrCodecCtrl 3) State.reset) =
      some ({ RegFile.zero with codecCtrl := 2 }, [.pulse .codecRequest]) := by decide

/-- VW6, VW9: the direction comes from the written value, not from the stored word. -/
theorem test_wr_codec_ctrl_direction :
    result (exec (.wrCodecCtrl 0xFFFFFFFD) State.reset) =
      some ({ RegFile.zero with codecCtrl := 0xFFFFFFFC }, [.pulse .codecReply]) ∧
    result (exec (.wrCodecCtrl 1) (start { RegFile.zero with codecCtrl := 2 })) =
      some (RegFile.zero, [.pulse .codecReply]) := by decide

theorem test_wr_opaque_codec_words :
    result (exec (.wrCodecAddr 0x1A) State.reset) = some ({ RegFile.zero with codecAddr := 0x1A }, []) ∧
    result (exec (.wrCodecDataOut 0xFFFFFFFF) State.reset) =
      some ({ RegFile.zero with codecDataOut := 0xFFFFFFFF }, []) ∧
    result (exec (.wrCodecDataIn 0x1234) State.reset) =
      some ({ RegFile.zero with codecDataIn := 0x1234 }, []) := by decide

/-- VW12, and the example of 41_register_write.md R145. -/
theorem test_wr_play_ctrl :
    after (exec (.wrPlayCtrl 1) State.reset) = some
      { State.reset with regs := { RegFile.zero with playCtrl := 1 }, playActive := true } ∧
    after (exec (.wrPlayCtrl 0xFFFFFFFE) (start { RegFile.zero with playCtrl := 1 })) = some
      { State.reset with regs := { RegFile.zero with playCtrl := 0xFFFFFFFE } } := by decide

/-- VW16. -/
theorem test_wr_cap_ctrl :
    after (exec (.wrCapCtrl 1) State.reset) = some
      { State.reset with regs := { RegFile.zero with capCtrl := 1 }, capActive := true } := by decide

/-- VW18: a counter written to 0 on a live channel pulses nothing. -/
theorem test_wr_play_cursor_and_counter :
    result (exec (.wrPlayAddr 0x1001) State.reset) = some ({ RegFile.zero with playAddr := 0x1001 }, []) ∧
    result (exec (.wrPlayRemaining 0) (playing 1 0x1000 500 [])) =
      some ({ RegFile.zero with playCtrl := 1, playAddr := 0x1000 }, []) := by decide

theorem test_wr_cap_cursor_and_counter :
    result (exec (.wrCapAddr 0xFFFFFFF0) State.reset) =
      some ({ RegFile.zero with capAddr := 0xFFFFFFF0 }, []) ∧
    result (exec (.wrCapRemaining 0x20) State.reset) =
      some ({ RegFile.zero with capRemaining := 0x20 }, []) := by decide

/-- S9: no word changes, the reserved one included. -/
theorem test_wr_reserved :
    result (exec (.wrReserved 0xDEADBEEF) (start distinct)) =
      some (distinct, [.diag .unknownWrite 7]) := by decide

/-- VW21: index 16 is not CODEC_CTRL. -/
theorem test_wr_out_of_range :
    result (exec (.wrOutOfRange 16 0xFFFFFFFF) (start distinct)) =
      some (distinct, [.diag .unknownWrite 16]) := by decide

/-! ### Playback service (95_test_vectors.md 2.4) -/

/-- VP6: short answers do not stop the loop, and bytes not taken are offered again. -/
theorem test_psvc_short_answers :
    played (exec (.psvc 10) (playing 1 0 10 [3, 3, 3, 1])) =
      some ⟨0xA, 0, [(10, 0, 3), (7, 3, 3), (4, 6, 3), (1, 9, 1)], [.playDone]⟩ := by decide

/-- VP4 and VP7: a budget above the counter, and a first answer of 0. -/
theorem test_psvc_budget_and_zero_answer :
    played (exec (.psvc 1000) (playing 1 0x100 5 [5])) = some ⟨0x105, 0, [(5, 0x100, 5)], [.playDone]⟩ ∧
    played (exec (.psvc 50) (playing 1 0x1000 100 [0])) = some ⟨0x1000, 100, [(50, 0x1000, 0)], []⟩ := by
  decide

/-- VP11: the burst wraps at the top of the address space, and is refused under the other parameter. -/
theorem test_psvc_burst_wrap :
    played (exec (.psvc 8) (playing 1 0xFFFFFFFC 8 [8])) =
      some ⟨4, 0, [(8, 0xFFFFFFFC, 8)], [.playDone]⟩ ∧
    refusal (exec (.psvc 8)
      { playing 1 0xFFFFFFFC 8 [8] with cfg := { Config.default with burstWrap := .refuse } }) =
      some .burstCrossesTop := by decide

/-- VP12 and VP14: a disabled channel moves bytes and pulses nothing; chunks of STAGING_BYTES = 1. -/
theorem test_psvc_disabled_and_staging :
    played (exec (.psvc 4) (playing 0 0x10 4 [4])) = some ⟨0x14, 0, [(4, 0x10, 4)], []⟩ ∧
    played (exec (.psvc 3)
      { playing 1 0 3 [1, 1, 1] with cfg := { Config.default with stagingBytes := 1 } }) =
      some ⟨3, 0, [(1, 0, 1), (1, 1, 1), (1, 2, 1)], [.playDone]⟩ := by decide

/-- The bytes offered are those of host memory in ascending address order (42_playback_dma.md R176). -/
theorem test_psvc_offers_memory :
    (after (exec (.psvc 3) { playing 1 0xFFFFFFFF 3 [3] with mem := [(1, 0x22), (0xFFFFFFFF, 0x11)] })).map
      (fun t => t.trace) =
      some [.offer 0xFFFFFFFF [0x11, 0, 0x22] 3, .pulse .playDone] := by decide

/-! ### Capture service (95_test_vectors.md 2.5; the source's bytes are 0, 1, 2, ...) -/

/-- VC3. -/
theorem test_csvc_partial :
    pulledOf (exec (.csvc 4) (capturing 1 0x2000 6 [[0, 1, 2, 3]])) =
      some ⟨0x2004, 2, [(0x2001, 1), (0x2002, 2), (0x2003, 3)], [(4, 4)], []⟩ := by decide

/-- VC5: the bytes past a short answer are not touched. -/
theorem test_csvc_stall :
    pulledOf (exec (.csvc 10)
      { capturing 1 0x100 10 [[0, 1, 2], []] with mem := [(0x100, 0x77), (0x103, 0x99)] }) =
      some ⟨0x103, 7, [(0x101, 1), (0x102, 2), (0x103, 0x99)], [(10, 3), (7, 0)], []⟩ := by decide

/-- VC10: the source is never asked for more than remains. -/
theorem test_csvc_drains :
    pulledOf (exec (.csvc 100) (capturing 1 0 5 [[0, 1], [2, 3], [4]])) =
      some ⟨5, 0, [(1, 1), (2, 2), (3, 3), (4, 4)], [(5, 2), (3, 2), (1, 1)], [.capDone]⟩ := by decide

/-- 43_capture_dma.md R195(d): bytes the source has beyond the chunk stay with the source. -/
theorem test_csvc_takes_at_most_the_chunk :
    pulledOf (exec (.csvc 2) (capturing 1 0xFFFFFFFF 4 [[7, 8, 9]])) =
      some ⟨1, 2, [(0, 8), (0xFFFFFFFF, 7)], [(2, 2)], []⟩ := by decide

/-! ### Lifecycle (95_test_vectors.md 2.6) -/

/-- S7. -/
theorem test_rst :
    after (exec .rst (start ⟨2, 0x1A, 0xBEEF, 0x1234, 1, 0x23E8, 4904, 0x55, 1, 0x9000, 16⟩)) =
      some State.reset := by decide

/-- 44_lifecycle.md R211's example, and VL6: a restored request-enable bit pulses nothing. -/
theorem test_rstr :
    after (exec (.rstr ⟨0, 0, 0, 0, 1, 0x3000, 0x100, 0, 0, 0, 0⟩) State.reset) = some
      { State.reset with regs := ⟨0, 0, 0, 0, 1, 0x3000, 0x100, 0, 0, 0, 0⟩, playActive := true } ∧
    after (exec (.rstr ⟨1, 0, 0, 0, 0, 0, 0, 0, 0, 0, 0⟩) State.reset) = some
      { State.reset with regs := { RegFile.zero with codecCtrl := 1 } } := by decide

/-! ### Steps -/

/-- P1 line 3 as a step: the input is taken and its operation runs. -/
theorem test_step_runs_the_input :
    after (step { State.reset with pending := [.op (.ofH 0x100000000#35 [3])] }) = some
      { State.reset with regs := { RegFile.zero with codecCtrl := 2 }, trace := [.pulse .codecRequest] } := by
  decide

theorem test_step_runs_the_table_word :
    after (step (State.reset.withFetchWord 72 (0x100000006 + 5 * 2 ^ 40))) = some
      { State.reset with regs := { RegFile.zero with playRemaining := 5 } } ∧
    (after (step (State.reset.withFetchWord 40 0x200000003))).isSome = true := by decide

/-- Parameters under which some bursts have no meaning (20_memory.md R71, R74, R75). -/
def strict : Config :=
  { Config.default with
    stagingBytes := 4, burstWrap := .refuse, windowBase := some 0x1000, readSideEffects := [⟨0x3000, 1⟩] }

/-- 20_memory.md R74, R75: refused bursts, the first and a later one. -/
theorem test_refused_bursts :
    refusal (exec (.psvc 4) { playing 1 0x0FFD 8 [] with cfg := strict }) = some .burstCoversWindow ∧
    refusal (exec (.psvc 8) { playing 1 0x0FFC 8 [4, 4] with cfg := strict }) = some .burstCoversWindow ∧
    refusal (exec (.psvc 4) { playing 1 0x2FFD 8 [] with cfg := strict }) =
      some .burstReadsSideEffects := by decide

/-- The same parameters refuse no burst that ends at 2^32, short of the window or past it, and no capture over
side effects (20_memory.md R71, R74, R75). -/
theorem test_strict_parameters_run :
    played (exec (.psvc 4) { playing 1 0xFFFFFFFC 8 [4] with cfg := strict }) =
      some ⟨0, 4, [(4, 0xFFFFFFFC, 4)], []⟩ ∧
    (after (exec (.psvc 4) { playing 1 0x0FFC 8 [4] with cfg := strict })).isSome = true ∧
    (after (exec (.psvc 4) { playing 1 0x102C 8 [4] with cfg := strict })).isSome = true ∧
    (after (exec (.csvc 4) { capturing 1 0x3000 8 [[1]] with cfg := strict })).isSome = true := by decide

theorem test_witness_DecodeOfEncodeIsTheOperation :
    (Instr.rdOutOfRange 11).wf = true ∧ (Instr.wrOutOfRange 4294967295 0).wf = true ∧
    (encode (.wrOutOfRange 4294967295 0)).arg < 2 ^ 32 ∧ (Instr.rdOutOfRange 4294967296).wf = true := by decide

theorem test_witness_EncodeOfDecodeIsTheDescriptor :
    decode (.ofH 0x30000000F#35 []) = .ok (.csvc 15) ∧ (Descriptor.ofH 0x30000000F#35 []).kind.toNat < 4 ∧
    decode (.ofH 0x40000000F#35 []) = .ok .rst := ⟨rfl, by decide, rfl⟩

theorem test_witness_DecoderAgreesWithTheOpcodeTable :
    ((0x500000000#35).extractLsb' 32 3).toNat = 5 ∧ ((0x600000000#35).extractLsb' 32 3).toNat = 6 ∧
    decode (.ofH 0x0FFFFFFFF#35 []) = .ok (.rdOutOfRange 4294967295) := ⟨by decide, by decide, rfl⟩

theorem test_witness_OnlyAlignedWordAccessesHaveAnIndex :
    hostAccessIndex 40 4 = some 10 ∧ hostAccessIndex 17179869180 4 = some 4294967295 ∧
    hostAccessIndex 40 2 = none ∧ hostAccessIndex 41 4 = none := by decide

theorem test_witness_OutOfRangeAccessesOnlyEmitADiagnostic :
    11 ≤ (11 : Nat) ∧ 11 ≤ (4294967295 : Nat) ∧ ¬ 11 ≤ (10 : Nat) := by decide

theorem test_witness_RegReadContract :
    Slot.ofIndex (10 : Nat) = some .capRemaining ∧ Slot.capRemaining ≠ .reserved ∧
    Slot.ofIndex (11 : Nat) = none ∧ 11 ≤ (11 : Nat) := by decide

theorem test_witness_RegWriteTouchesOnlyItsWord :
    Slot.capRemaining.index ≠ (9 : Nat) ∧ Slot.codecCtrl.index ≠ (11 : Nat) := by decide

theorem test_witness_EveryCodecCommandPulses :
    (1 : Word).getLsbD 0 = true ∧ (3 : Word).getLsbD 0 = true ∧ (3 : Word).getLsbD 1 = true := by decide

/-- Of DmaCtrlWritesStoreAndReevaluate, RestoreOfASavedSnapshotIsTheIdentity, StepKeepsTheStreamFlags. -/
theorem test_witness_FlagsMatch :
    FlagsMatch (start distinct) ∧ FlagsMatch (playing 1 0 1 []) ∧ (playing 1 0 1 []).playActive = true := by
  decide

/-- Of BurstsClear, under parameters that refuse no burst and under `strict`, at its boundaries; of
NoOperationFails. -/
theorem test_witness_BurstsClear :
    BurstsClear .play 4 (playing 1 0 4 []) ∧ BurstsClear .cap 4 (capturing 1 0 4 []) ∧
    BurstsClear .play 4 { playing 1 0xFFFFFFFC 4 [] with cfg := strict } ∧
    BurstsClear .cap 4 { capturing 1 0x3000 4 [] with cfg := strict } ∧
    ¬ BurstsClear .play 4 { playing 1 0x0FFD 4 [] with cfg := strict } := by decide

/-- The hypothesis of PlayServiceFollowsThePseudocode. -/
theorem test_witness_PlayServiceFollowsThePseudocode :
    ∀ j cursor n, Pseudocode.playBurst (playing 1 0 4 [2, 2]) 4 j = some (cursor, n) →
      ¬ Pseudocode.ReadForbidden (playing 1 0 4 [2, 2]).cfg cursor n := by
  rintro j cursor n - (⟨h, -⟩ | ⟨base, k, h, -⟩ | ⟨r, h, -⟩) <;> cases h

/-- The hypothesis of CaptureServiceFollowsThePseudocode. -/
theorem test_witness_CaptureServiceFollowsThePseudocode :
    ∀ j cursor n, Pseudocode.capBurst (capturing 1 0 4 [[1]]) 4 j = some (cursor, n) →
      ¬ Pseudocode.WriteForbidden (capturing 1 0 4 [[1]]).cfg cursor n := by
  rintro j cursor n - (⟨h, -⟩ | ⟨base, k, h, -⟩) <;> cases h

theorem test_witness_BudgetEntersOnlyThroughWant :
    min (playing 1 0 5 []).regs.playRemaining.toNat (0 : Nat) = 0 ∧
    min (capturing 1 0 0 []).regs.capRemaining.toNat (7 : Nat) = 0 ∧
    (playing 1 0 5 []).regs.playRemaining.toNat ≤ (5 : Nat) ∧
    (capturing 1 0 5 []).regs.capRemaining.toNat ≤ (6 : Nat) := by decide

/-- Of PlayServiceFrame and PlaybackLoopBounds. -/
theorem test_witness_play_service :
    ∃ t, exec (.psvc 4) (playing 1 0 4 [2, 2]) = .next t := ⟨_, rfl⟩

/-- Of CaptureServiceFrame and CaptureLoopBounds. -/
theorem test_witness_capture_service :
    MemCanonical (capturing 1 0 4 [[1, 2]]) ∧
    ∃ t, exec (.csvc 4) (capturing 1 0 4 [[1, 2]]) = .next t := ⟨by decide, _, rfl⟩

/-- Of SinkReceivesTheContiguousBytes and ArmedPlaybackCompletesExactlyOnce. -/
theorem test_witness_play_sequence :
    (playing 1 0 4 [2, 2]).cfg.paddrBits ≤ 32 ∧ (playing 1 0 4 [2, 2]).regs.playCtrl.getLsbD 0 = true ∧
    (playing 1 0 4 [2, 2]).regs.playRemaining ≠ 0 ∧
    ∃ t, runAll ([2, 2].map .psvc) (playing 1 0 4 [2, 2]) = .next t ∧ t.regs.playRemaining = 0 :=
  ⟨by decide, by decide, by decide, _, rfl, by decide⟩

/-- Of MemoryReceivesTheStreamContiguously and ArmedCaptureCompletesExactlyOnce. -/
theorem test_witness_capture_sequence :
    MemCanonical (capturing 1 0 3 [[1, 2], [3]]) ∧ (capturing 1 0 3 [[1, 2], [3]]).cfg.paddrBits ≤ 32 ∧
    (capturing 1 0 3 [[1, 2], [3]]).regs.capRemaining.toNat ≤
      2 ^ (capturing 1 0 3 [[1, 2], [3]]).cfg.paddrBits ∧
    (capturing 1 0 3 [[1, 2], [3]]).regs.capCtrl.getLsbD 0 = true ∧
    (capturing 1 0 3 [[1, 2], [3]]).regs.capRemaining ≠ 0 ∧
    ∃ t, runAll ([2, 2].map .csvc) (capturing 1 0 3 [[1, 2], [3]]) = .next t ∧ t.regs.capRemaining = 0 :=
  ⟨by decide, by decide, by decide, by decide, by decide, _, rfl, by decide⟩

theorem test_witness_NonEmptyAnswerMakesProgress :
    (1 : Nat) ≠ 0 ∧ BurstsClear .play 1 (playing 1 0 9 [1]) ∧ (playing 1 0 9 [1]).regs.playRemaining ≠ 0 ∧
    (∃ a rest, (playing 1 0 9 [1]).sinkAnswers = (a + 1) :: rest) ∧
    BurstsClear .cap 1 (capturing 1 0 9 [[5]]) ∧ (capturing 1 0 9 [[5]]).regs.capRemaining ≠ 0 ∧
    (∃ x xs rest, (capturing 1 0 9 [[5]]).sourceAnswers = (x :: xs) :: rest) :=
  ⟨by decide, by decide, by decide, ⟨0, [], rfl⟩, by decide, by decide, ⟨5, [], [], rfl⟩⟩

/-- The first burst of a playback that crosses by one byte, and the second of one that runs into the window
after a first that ends just below it. -/
theorem test_witness_ForbiddenPlaybackBurstIsRefused :
    Pseudocode.playBurst { playing 1 0xFFFFFFFD 9 [] with cfg := strict } 9 0 = some (0xFFFFFFFD, 4) ∧
    Pseudocode.CrossesTop strict 0xFFFFFFFD 4 ∧
    Pseudocode.playBurst { playing 1 0xFFC 8 [4, 4] with cfg := strict } 8 0 = some (0xFFC, 4) ∧
    ¬ Pseudocode.ReadForbidden strict 0xFFC 4 ∧
    Pseudocode.playBurst { playing 1 0xFFC 8 [4, 4] with cfg := strict } 8 1 = some (0x1000, 4) ∧
    ¬ Pseudocode.CrossesTop strict 0x1000 4 ∧ Pseudocode.CoversWindow strict 0x1000 4 ∧
    Pseudocode.CoversSideEffects strict 0x2FFD 4 := by
  refine ⟨rfl, ⟨rfl, by decide⟩, rfl, ?_, rfl, fun h => absurd h.2 (by decide), ⟨0x1000, 0, rfl, by decide⟩,
    ⟨⟨0x3000, 1⟩, by decide⟩⟩
  rintro (h | ⟨base, k, hb, hk, h1, h2⟩ | ⟨r, hr, k, hk, h1, h2⟩)
  · exact absurd h.2 (by decide)
  · cases hb
    interval_cases k <;> revert h1 <;> decide
  · cases List.mem_singleton.1 hr
    interval_cases k <;> revert h1 <;> decide

theorem test_witness_ForbiddenCaptureBurstIsRefused :
    Pseudocode.capBurst { capturing 1 0xFFFFFFFD 9 [[1, 2, 3, 4, 5]] with cfg := strict } 9 0 =
      some (0xFFFFFFFD, 4) ∧
    Pseudocode.capBurst { capturing 1 0xFFC 8 [[1, 2, 3, 4], [5]] with cfg := strict } 8 1 =
      some (0x1000, 1) ∧
    refusal (exec (.csvc 9) { capturing 1 0xFFFFFFFD 9 [[1, 2, 3, 4, 5]] with cfg := strict }) =
      some .burstCrossesTop ∧
    refusal (exec (.csvc 8) { capturing 1 0xFFC 8 [[1, 2, 3, 4], [5]] with cfg := strict }) =
      some .burstCoversWindow := ⟨rfl, rfl, by decide, by decide⟩

theorem test_witness_LiveChannelFollowsARewrittenRegister :
    (2 : Nat) ≠ 0 ∧ (0x8000 : Word) ≠ 0 ∧ (playing 1 0x1000 500 []).regs.playRemaining ≠ 0 ∧
    BurstsClear .play 2 (playing 1 0x8000 500 []) ∧ BurstsClear .play 2 (playing 1 0x1000 0x8000 []) ∧
    MemCanonical (capturing 1 0x1000 500 []) ∧ (capturing 1 0x1000 500 []).cfg.paddrBits ≤ 32 ∧
    (capturing 1 0x1000 500 []).regs.capRemaining.toNat ≤ 2 ^ (capturing 1 0x1000 500 []).cfg.paddrBits ∧
    BurstsClear .cap 2 (capturing 1 0x8000 500 []) ∧ BurstsClear .cap 2 (capturing 1 0x1000 0x8000 []) := by
  decide

theorem test_witness_FullAcceptanceDrainsThePlayback :
    BurstsClear .play 2 (playing 1 0 2 [4096, 5000]) ∧
    (playing 1 0 2 [4096, 5000]).regs.playCtrl.getLsbD 0 = true ∧
    (playing 1 0 2 [4096, 5000]).regs.playRemaining ≠ 0 ∧
    (∀ a ∈ (playing 1 0 2 [4096, 5000]).sinkAnswers, ((playing 1 0 2 [4096, 5000]).cfg.stagingBytes : Nat) ≤ a) ∧
    (playing 1 0 2 [4096, 5000]).regs.playRemaining.toNat ≤ (playing 1 0 2 [4096, 5000]).sinkAnswers.length ∧
    (playing 1 0 2 [4096, 5000]).regs.playRemaining.toNat ≤ [1, 1].sum := by
  decide

theorem test_witness_EnablingADrainedChannelNeverPulses :
    (playing 0 7 0 []).regs.playRemaining = 0 ∧ (capturing 0 7 0 []).regs.capRemaining = 0 := by decide

theorem test_witness_ArmSequencesArmTheChannel : (1 : Word) ≠ 0 := by decide

theorem test_witness_WordsChangeOnlyByTheirWriters :
    Slot.playCtrl ∉ mayWrite (.psvc 4) ∧ ∃ t, exec (.psvc 4) (playing 1 0 4 [4]) = .next t :=
  ⟨by decide, _, rfl⟩

/-- Of the statements about every operation that answers a next state: a read, a write, a service of each
channel, a restore. -/
theorem test_witness_operations :
    (∃ t, exec .rdReserved State.reset = .next t) ∧ (∃ t, exec (.wrCodecCtrl 3) State.reset = .next t) ∧
    (∃ t, exec (.wrPlayCtrl 1) State.reset = .next t) ∧
    (∃ t, exec (.psvc 4) (playing 1 0 4 [4]) = .next t) ∧
    (∃ t, exec (.csvc 1) (capturing 1 0 1 [[9]]) = .next t) ∧ (∃ t, exec .rst State.reset = .next t) :=
  ⟨⟨_, rfl⟩, ⟨_, rfl⟩, ⟨_, rfl⟩, ⟨_, rfl⟩, ⟨_, rfl⟩, ⟨_, rfl⟩⟩

/-- Both sides of CompletionIsTheArmedToDrainedTransition and of CompletionLinesPulseOnlyOnDrainingServices. -/
theorem test_witness_completion :
    channelState .play (playing 1 0 4 [4]) = .armed ∧
    (after (exec (.psvc 4) (playing 1 0 4 [4]))).map (fun t => (channelState .play t, pulses t.trace)) =
      some (.enabledDrained, [.playDone]) ∧
    (after (exec (.psvc 4) (playing 1 0 4 [3, 0]))).map (fun t => (channelState .play t, pulses t.trace)) =
      some (.armed, []) := by decide

/-- Of CursorAndCounterMoveTogether and CompletionFiresAtMostOncePerTransfer. -/
theorem test_witness_one_transfer :
    (∀ i ∈ [Instr.psvc 2, .wrPlayCtrl 0, .rdPlayAddr, .csvc 1, .psvc 2],
      servicedChannel i = some Channel.play ∨
        (Channel.play.addr ∉ mayWrite i ∧ Channel.play.remaining ∉ mayWrite i)) ∧
    ∃ t, runAll [.psvc 2, .wrPlayCtrl 0, .rdPlayAddr, .csvc 1, .psvc 2] (playing 1 0 4 [2, 2]) = .next t :=
  ⟨by decide, _, rfl⟩

theorem test_witness_NoOperationFails :
    servicedChannel (.rstr distinct) = none ∧ servicedChannel (.psvc 1) = some .play := by decide

/-- The refused side of ReservedWordIsNeverRead and OpaqueCodecWordsAreNeverInterpreted. -/
theorem test_witness_refused_operation :
    refusal (exec (.psvc 4)
      { playing 1 0xFFC 8 [] with cfg := { Config.default with windowBase := some 0xFFF } }) =
      some .burstCoversWindow ∧
    Instr.psvc 4 ≠ .rdCodecAddr := by decide

theorem test_witness_StepRunsTheDecodedOperation :
    decode (.ofH 0x2FFFFFFFF#35 []) = .ok (.psvc 4294967295) ∧
    (Descriptor.ofH 0x2FFFFFFFF#35 []).arg < 2 ^ Config.default.budgetBits ∧
    (servicedChannel (.psvc 4) = some .play ∧ streamActive .play (playing 1 0 4 [4]) = true) ∧
    servicedChannel .rst = none := ⟨rfl, by decide, by decide, by decide⟩

theorem test_witness_StepRefusesWhatNoAgentIssues :
    refusal (step { State.reset with pending := [.op (.ofH 0x600000000#35 [])] }) =
      some (.badDescriptor (.unassignedKind 6)) ∧
    refusal (step { playing 0 0 4 [4] with pending := [.op (.ofH 0x200000004#35 [])] }) =
      some (.serviceWhileInactive .play) ∧
    refusal (step { capturing 0 0 4 [[1]] with pending := [.op (.ofH 0x300000004#35 [])] }) =
      some (.serviceWhileInactive .cap) ∧
    refusal (step { playing 1 0 4 [] with pending := [.op ⟨2, 4294967296, []⟩] }) =
      some .argOutsideDomain := by decide

theorem test_witness_HostStoreAndIdleSteps :
    MemCanonical { State.reset with mem := [(3, 1), (9, 2)] } ∧ State.reset.pending = [] ∧
    (after (step { State.reset with mem := [(3, 1), (9, 2)], pending := [.hostStore 5 7] })).map
      (fun t => t.mem) = some [(3, 1), (5, 7), (9, 2)] ∧
    (after (step { State.reset with mem := [(3, 1), (9, 2)], pending := [.hostStore 9 0] })).map
      (fun t => t.mem) = some [(3, 1)] := by decide

/-- The reset state with a write of PLAY_CTRL and a playback service pending. -/
def twoInputs : State :=
  { State.reset with pending := [.op (.ofH 0x100000004#35 [1]), .op (.ofH 0x200000002#35 [])] }

/-- Of the invariants a step keeps, and of StreamFlagsMatchInEveryReachedState. -/
theorem test_witness_steps :
    FlagsMatch twoInputs ∧ MemCanonical twoInputs ∧ RequestBitClear twoInputs ∧ ReservedZero twoInputs ∧
    (∃ t, step twoInputs = .next t ∧ t.playActive = true) ∧
    ∃ u, Sys2Proof.core.run 2 twoInputs = .next u :=
  ⟨by decide, by decide, by decide, by decide, ⟨_, rfl, by decide⟩, _, rfl⟩

theorem test_witness_StepKeepsRequestBitAndReservedWordClear :
    RequestBitClear State.reset ∧ ReservedZero State.reset ∧
    decode (.ofH 0x100000004#35 [1]) = .ok (.wrPlayCtrl 1) := ⟨by decide, by decide, rfl⟩

end Sys2Proof.Tests
end

/-! The family of spec/00_scope.md: when a step runs the operation its next input spells. -/

section
namespace Sys2Proof.Machine

/-- What the agents can present is what R12 asks of an index and R13 of a budget. -/
theorem argFits_iff {cfg : Config} {d : Descriptor} :
    d.argFits cfg = true ↔
      (d.kind = 0 ∨ d.kind = 1 → d.arg < 2 ^ cfg.indexBits) ∧
      (d.kind = 2 ∨ d.kind = 3 → d.arg < 2 ^ cfg.budgetBits) := by
  simp only [← BitVec.toNat_inj, BitVec.reduceToNat]
  unfold Descriptor.argFits
  split
  case h_5 h0 h1 h2 h3 =>
    exact iff_of_true rfl ⟨fun h => (h.elim h0 h1).elim, fun h => (h.elim h2 h3).elim⟩
  all_goals rename_i hk; simp [hk]

/-- Nothing keeps an agent from issuing an operation exactly when its `arg` is in its domain and it services no
channel, or service is always possible, or that channel's stream is active (D12). -/
theorem issueRefusal_eq_none_iff {d : Descriptor} {i : Instr} {s : State} :
    issueRefusal d i s = none ↔
      d.argFits s.cfg = true ∧
      (servicedChannel i = none ∨ s.cfg.serviceWhenInactive = true ∨
        ∃ ch, servicedChannel i = some ch ∧ streamActive ch s = true) := by
  unfold issueRefusal
  cases hf : d.argFits s.cfg with
  | false => simp
  | true =>
    cases servicedChannel i with
    | none => simp
    | some ch => simp [or_iff_not_imp_left]

/-- A step with a descriptor that decodes and may be issued is `exec` once the input is taken. -/
theorem step_op {s : State} {d : Descriptor} {rest : List Input} {i : Instr}
    (hp : s.pending = .op d :: rest) (hd : decode d = .ok i) (hi : issueRefusal d i s = none) :
    step s = exec i { s with pending := rest } := by
  unfold step
  simp only [hp, hd, hi]

/-- Settles O52: the descriptor's domain and the gate of D12 are all that `issueRefusal` asks, so the step
takes the branch that executes. -/
theorem stepRunsTheDecodedOperation : Obligations.StepRunsTheDecodedOperation := by
  intro s d rest i hp hd hindex hbudget hgate
  exact step_op hp hd (issueRefusal_eq_none_iff.mpr ⟨argFits_iff.mpr ⟨hindex, hbudget⟩, hgate⟩)

end Sys2Proof.Machine
end

/-! The family of spec/10_state.md, part 1: the pulses of a trace, what a service leaves, and what one operation
can do to a state, said once. -/

section
namespace Sys2Proof.Machine

@[simp] theorem pulses_append (tr es : List Event) : pulses (tr ++ es) = pulses tr ++ pulses es :=
  List.filterMap_append

/-- Putting an event that is no pulse before a trace leaves its pulses. -/
theorem pulses_cons_of_line_eq_none {e : Event} (h : e.line = none) (es : List Event) :
    pulses (e :: es) = pulses es := List.filterMap_cons_none h

@[simp] theorem pulseCount_append (l : Line) (tr es : List Event) :
    pulseCount l (tr ++ es) = pulseCount l tr + pulseCount l es := by
  simp [pulseCount]

/-- Events that pulse nothing pulse no line. -/
@[simp] theorem pulseCount_of_pulses_eq_nil {es : List Event} (h : pulses es = []) (l : Line) :
    pulseCount l es = 0 := by
  simp [pulseCount, h]

/-- One pulse counts on its own line alone. -/
theorem pulseCount_singleton_pulse (l k : Line) : pulseCount l [.pulse k] = if k = l then 1 else 0 := by
  simp [pulseCount, pulses, Event.line, List.count_singleton]

theorem Channel.doneLine_inj {c d : Channel} : c.doneLine = d.doneLine ↔ c = d := by
  cases c <;> cases d <;> decide

/-- The offers of a playback service pulse nothing. -/
theorem playLoop_pulses {cfg : Config} {mem : Memory} {base : Word} {want : Nat} (answers : List Nat)
    {done : Nat} {run : PlayRun} (h : playLoop cfg mem base want answers done = .ok run) :
    pulses run.offers = [] := by
  induction answers generalizing done run with
  | nil =>
    rcases playLoop_ok_cases h with ⟨_, rfl⟩ | ⟨_, _, _, rfl⟩ | ⟨_, _, _, _, _, _, hc, _⟩
    · rfl
    · rfl
    · cases hc
  | cons a rest ih =>
    rcases playLoop_ok_cases h with ⟨_, rfl⟩ | ⟨_, _, _, rfl⟩ | ⟨_, _, _, _, _, _, hc, hl, rfl⟩
    · rfl
    · rfl
    · cases hc
      exact (pulses_cons_of_line_eq_none rfl _).trans (ih hl)

/-- The pulls of a capture service pulse nothing. -/
theorem capLoop_pulses {cfg : Config} {base : Word} {want : Nat} (answers : List (List Byte))
    {mem : Memory} {done : Nat} {run : CapRun} (h : capLoop cfg base want answers mem done = .ok run) :
    pulses run.pulls = [] := by
  induction answers generalizing mem done run with
  | nil =>
    rcases capLoop_ok_cases h with ⟨_, rfl⟩ | ⟨_, _, rfl⟩ | ⟨_, _, _, _, _, _, hc, _⟩
    · rfl
    · rfl
    · cases hc
  | cons b rest ih =>
    rcases capLoop_ok_cases h with ⟨_, rfl⟩ | ⟨_, _, rfl⟩ | ⟨_, _, _, _, _, _, hc, hl, rfl⟩
    · rfl
    · rfl
    · cases hc
      exact (pulses_cons_of_line_eq_none rfl _).trans (ih hl)

/-- What a service of `ch` that moved `n` bytes leaves of `s`: the events `es` of its chunks, host memory and
the answers still to come as its loop left them, then the commit and the completion check
(42_playback_dma.md R173, R174, 43_capture_dma.md R193, R194). -/
def serviced (ch : Channel) (n : Nat) (es : List Event) (mem : Memory) (sink : List Nat)
    (source : List (List Byte)) (s : State) : State :=
  complete ch (commit ch n (emit es { s with mem := mem, sinkAnswers := sink, sourceAnswers := source }))

/-- Playback's end of a service is `serviced`. -/
theorem playFinish_eq_serviced (s : State) (run : PlayRun) :
    playFinish s run = serviced .play run.done run.offers s.mem run.answers s.sourceAnswers s := rfl

/-- Capture's end of a service is `serviced`. -/
theorem capFinish_eq_serviced (s : State) (run : CapRun) :
    capFinish s run = serviced .cap run.done run.pulls run.mem s.sinkAnswers run.answers s := rfl

section Serviced
variable (ch : Channel) (n : Nat) (es : List Event) (mem : Memory) (sink : List Nat)
  (source : List (List Byte)) (s : State)

@[simp] theorem serviced_regs :
    (serviced ch n es mem sink source s).regs =
      (s.regs.set ch.addr (s.regs.get ch.addr + BitVec.ofNat 32 n)).set ch.remaining
        (s.regs.get ch.remaining - BitVec.ofNat 32 n) := by
  unfold serviced
  rw [complete_eq_emit, commit_eq]
  rfl

theorem serviced_get_remaining :
    (serviced ch n es mem sink source s).regs.get ch.remaining =
      s.regs.get ch.remaining - BitVec.ofNat 32 n := by
  simp

theorem serviced_get_addr :
    (serviced ch n es mem sink source s).regs.get ch.addr = s.regs.get ch.addr + BitVec.ofNat 32 n := by
  rw [serviced_regs, RegFile.get_set_ne _ _ (by cases ch <;> decide), RegFile.get_set_self]

/-- A service writes no word but its cursor and its counter. -/
theorem serviced_get_of_ne {r : Slot} (ha : r ≠ ch.addr) (hr : r ≠ ch.remaining) :
    (serviced ch n es mem sink source s).regs.get r = s.regs.get r := by
  rw [serviced_regs, RegFile.get_set_ne _ _ hr, RegFile.get_set_ne _ _ ha]

@[simp] theorem serviced_playActive : (serviced ch n es mem sink source s).playActive = s.playActive := by
  unfold serviced
  rw [complete_eq_emit, commit_eq]
  rfl

@[simp] theorem serviced_capActive : (serviced ch n es mem sink source s).capActive = s.capActive := by
  unfold serviced
  rw [complete_eq_emit, commit_eq]
  rfl

@[simp] theorem serviced_trace :
    (serviced ch n es mem sink source s).trace =
      s.trace ++ es ++ (if enabled (s.regs.get ch.ctrl) ∧ s.regs.get ch.remaining - BitVec.ofNat 32 n = 0
        then [.pulse ch.doneLine] else []) := by
  unfold serviced
  rw [complete_eq_emit, commit_eq]
  cases ch <;> rfl

end Serviced

/-- What an operation can do to a state, one constructor for each way of acting. -/
inductive Effect (s : State) : Instr → State → Prop where
  /-- A register read, or an access to no named register: outputs that pulse nothing. -/
  | report {i : Instr} {es : List Event} (hs : servicedChannel i = none) (hw : mayWrite i = [])
      (hes : pulses es = []) : Effect s i (emit es s)
  /-- A write of CODEC_CTRL (41_register_write.md R141). -/
  | command (v : Word) :
      Effect s (.wrCodecCtrl v) (storeReg .codecCtrl (codecStored v) (codecPulse v s))
  /-- A verbatim write of a word that holds no control bit. -/
  | store {i : Instr} {r : Slot} (v : Word) (hs : servicedChannel i = none) (hw : mayWrite i = [r])
      (hr : r ∉ [Slot.codecCtrl, .playCtrl, .reserved, .capCtrl]) : Effect s i (storeReg r v s)
  /-- A write of a DMA channel's CTRL (41_register_write.md R145, R149). -/
  | control {i : Instr} (ch : Channel) (v : Word) (hs : servicedChannel i = none)
      (hw : mayWrite i = [ch.ctrl]) : Effect s i (reevaluate (storeReg ch.ctrl v s))
  /-- RESET (44_lifecycle.md R210). -/
  | reset : Effect s .rst (deactivate { s with regs := RegFile.zero })
  /-- RESTORE (44_lifecycle.md R211). -/
  | restore (w : RegFile) : Effect s (.rstr w) (reevaluate { s with regs := w })
  /-- A service that wants nothing (42_playback_dma.md R171, 43_capture_dma.md R191). -/
  | idle {i : Instr} {ch : Channel} (hs : servicedChannel i = some ch) : Effect s i s
  /-- A service that runs its chunk loop: the counter is not 0 and bounds the bytes moved. -/
  | service {i : Instr} {ch : Channel} {n : Nat} {es : List Event} {mem : Memory} {sink : List Nat}
      {source : List (List Byte)} (hs : servicedChannel i = some ch)
      (hw : mayWrite i = [ch.addr, ch.remaining]) (hrem : s.regs.get ch.remaining ≠ 0)
      (hn : n ≤ (s.regs.get ch.remaining).toNat) (hes : pulses es = []) :
      Effect s i (serviced ch n es mem sink source s)

theorem want_le_remaining (ch : Channel) (b : Nat) (s : State) :
    want ch b s ≤ (s.regs.get ch.remaining).toNat := Nat.min_le_left _ _

/-- A service that wants a byte has a counter that is not 0. -/
theorem remaining_ne_zero_of_want {ch : Channel} {b : Nat} {s : State} (h : want ch b s ≠ 0) :
    s.regs.get ch.remaining ≠ 0 := by
  intro h0
  have := want_le_remaining ch b s
  rw [h0] at this
  exact h (Nat.le_zero.mp this)

theorem execPsvc_effect {b : Nat} {s t : State} (h : execPsvc b s = .next t) : Effect s (.psvc b) t := by
  rcases execPsvc_next h with ⟨_, rfl⟩ | ⟨hw, run, hd, hl, rfl⟩
  · exact .idle rfl
  · rw [playFinish_eq_serviced]
    exact .service rfl rfl (remaining_ne_zero_of_want hw) (hd.trans (want_le_remaining _ _ _))
      (playLoop_pulses _ hl)

theorem execCsvc_effect {b : Nat} {s t : State} (h : execCsvc b s = .next t) : Effect s (.csvc b) t := by
  rcases execCsvc_next h with ⟨_, rfl⟩ | ⟨hw, run, hd, hl, rfl⟩
  · exact .idle rfl
  · rw [capFinish_eq_serviced]
    exact .service rfl rfl (remaining_ne_zero_of_want hw) (hd.trans (want_le_remaining _ _ _))
      (capLoop_pulses _ hl)

/-- Everything an operation can do when it answers a next state. -/
theorem exec_effect {i : Instr} {s t : State} (h : exec i s = .next t) : Effect s i t := by
  cases i with
  | psvc b => exact execPsvc_effect h
  | csvc b => exact execCsvc_effect h
  | rdCodecCtrl | rdCodecAddr | rdCodecDataOut | rdCodecDataIn | rdPlayCtrl | rdPlayAddr | rdPlayRemaining
  | rdCapCtrl | rdCapAddr | rdCapRemaining =>
    cases h
    exact .report rfl rfl rfl
  | rdOutOfRange index =>
    cases h
    rw [returnData_eq_emit, diag_eq_emit, emit_emit]
    exact .report rfl rfl rfl
  | wrOutOfRange index v =>
    cases h
    exact .report rfl rfl rfl
  | rdReserved =>
    cases h
    rw [returnData_eq_emit, reservedDiag_eq_emit, emit_emit]
    exact .report rfl rfl (by split <;> rfl)
  | wrReserved v =>
    cases h
    rw [reservedDiag_eq_emit]
    exact .report rfl rfl (by split <;> rfl)
  | wrCodecCtrl v =>
    cases h
    exact .command v
  | wrCodecAddr v | wrCodecDataOut v | wrCodecDataIn v | wrPlayAddr v | wrPlayRemaining v | wrCapAddr v
  | wrCapRemaining v =>
    cases h
    exact .store v rfl rfl (by decide)
  | wrPlayCtrl v =>
    cases h
    exact .control .play v rfl rfl
  | wrCapCtrl v =>
    cases h
    exact .control .cap v rfl rfl
  | rst =>
    cases h
    exact .reset
  | rstr w =>
    cases h
    exact .restore w

/-- A service of a channel moves nothing, or leaves what `serviced` says. -/
theorem exec_service_cases {i : Instr} {ch : Channel} {s t : State} (hi : servicedChannel i = some ch)
    (h : exec i s = .next t) :
    t = s ∨ ∃ n es mem sink source, s.regs.get ch.remaining ≠ 0 ∧
      n ≤ (s.regs.get ch.remaining).toNat ∧ pulses es = [] ∧ t = serviced ch n es mem sink source s := by
  cases exec_effect h with
  | report hs | store _ hs | control _ _ hs => rw [hi] at hs; cases hs
  | command | reset | restore => cases hi
  | idle => exact .inl rfl
  | service hs hw hrem hn hes =>
    obtain rfl := Option.some.inj (hi.symm.trans hs)
    exact .inr ⟨_, _, _, _, _, hrem, hn, hes, rfl⟩

/-- RESET, and RESTORE with the same list, may write every word. -/
theorem mem_mayWrite_rst (r : Slot) : r ∈ mayWrite .rst := by cases r <;> decide

/-- An operation leaves every word it may not write. -/
theorem exec_get_of_notMem_mayWrite {i : Instr} {s t : State} {r : Slot} (h : exec i s = .next t)
    (hr : r ∉ mayWrite i) : t.regs.get r = s.regs.get r := by
  cases exec_effect h with
  | report => rfl
  | command v =>
    rw [codecPulse_eq_emit]
    exact RegFile.get_set_ne _ _ (List.ne_of_not_mem_cons hr)
  | store v hs hw | control ch v hs hw =>
    rw [hw] at hr
    exact RegFile.get_set_ne _ _ (List.ne_of_not_mem_cons hr)
  | reset | restore => exact absurd (mem_mayWrite_rst r) hr
  | idle => rfl
  | service hs hw =>
    rw [hw] at hr
    exact serviced_get_of_ne _ _ _ _ _ _ _ (List.ne_of_not_mem_cons hr)
      (List.ne_of_not_mem_cons (List.not_mem_of_not_mem_cons hr))

end Sys2Proof.Machine
end

/-! The family of spec/10_state.md, part 2: the invariants of R32, R39 and R48, and the state at construction. -/

section
namespace Sys2Proof.Machine

/-- A cleared word has its enable bit, or its request bit, clear. -/
theorem enabled_zero : enabled 0 = false := by decide

/-- The flags match wherever a state keeps both flags and both CTRL words of one in which they do. -/
theorem FlagsMatch.of_eq {s t : State} (hs : FlagsMatch s) (hp : t.playActive = s.playActive)
    (hc : t.capActive = s.capActive) (hpw : t.regs.get .playCtrl = s.regs.get .playCtrl)
    (hcw : t.regs.get .capCtrl = s.regs.get .capCtrl) : FlagsMatch t :=
  ⟨(hp.trans hs.1).trans (congrArg enabled hpw.symm), (hc.trans hs.2).trans (congrArg enabled hcw.symm)⟩

/-- Re-evaluation makes the flags match, whatever they were (41_register_write.md R153). -/
theorem flagsMatch_reevaluate (s : State) : FlagsMatch (reevaluate s) := ⟨rfl, rfl⟩

/-- Every operation keeps each stream flag equal to its enable bit: what touches a CTRL word re-evaluates
both flags, RESET clears words and flags together, and nothing else touches either (10_state.md R48). -/
theorem exec_keeps_flagsMatch (i : Instr) (s t : State) (hs : FlagsMatch s) (h : exec i s = .next t) :
    FlagsMatch t := by
  cases exec_effect h with
  | report | idle => exact hs
  | command v =>
    rw [codecPulse_eq_emit]
    exact hs
  | @store i r v hi hw hr =>
    exact hs.of_eq rfl rfl (RegFile.get_set_ne _ _ (by rintro rfl; exact hr (by decide)))
      (RegFile.get_set_ne _ _ (by rintro rfl; exact hr (by decide)))
  | control | restore => exact flagsMatch_reevaluate _
  | reset => exact ⟨enabled_zero.symm, enabled_zero.symm⟩
  | @service i ch =>
    exact hs.of_eq (serviced_playActive ..) (serviced_capActive ..)
      (serviced_get_of_ne _ _ _ _ _ _ _ (by cases ch <;> decide) (by cases ch <;> decide))
      (serviced_get_of_ne _ _ _ _ _ _ _ (by cases ch <;> decide) (by cases ch <;> decide))

/-- Settles O55: an idle step and a host store touch neither a flag nor a word, and every operation keeps the
match. -/
theorem stepKeepsTheStreamFlags : Obligations.StepKeepsTheStreamFlags :=
  fun _ _ => step_keeps (fun _ _ hs => hs) (fun _ _ _ hs => hs) exec_keeps_flagsMatch

/-- Settles O56: the flags match at construction whatever else the state holds, and every step keeps it. -/
theorem streamFlagsMatchInEveryReachedState : Obligations.StreamFlagsMatchInEveryReachedState :=
  fun n _ _ _ _ _ _ => run_keeps stepKeepsTheStreamFlags n ⟨enabled_zero.symm, enabled_zero.symm⟩

/-- The word a write of CODEC_CTRL stores has the request bit clear (30_encoding.md R95). -/
theorem codecStored_request_bit (v : Word) : (codecStored v).getLsbD 0 = false := by
  simp [codecStored]

/-- Every operation but a RESTORE keeps the request bit and the reserved word clear (10_state.md R32, R39). -/
theorem exec_keeps_requestBit_and_reserved {i : Instr} {s t : State} (hi : ∀ w, i ≠ .rstr w)
    (hq : RequestBitClear s) (hz : ReservedZero s) (h : exec i s = .next t) :
    RequestBitClear t ∧ ReservedZero t := by
  cases i with
  | wrCodecCtrl v =>
    cases h
    rw [codecPulse_eq_emit]
    exact ⟨codecStored_request_bit v, hz⟩
  | rst =>
    cases h
    exact ⟨enabled_zero, rfl⟩
  | rstr w => exact absurd rfl (hi w)
  | _ =>
    have hctrl := exec_get_of_notMem_mayWrite (r := .codecCtrl) h (by simp [mayWrite])
    have hres := exec_get_of_notMem_mayWrite (r := .reserved) h (by simp [mayWrite])
    exact ⟨(congrArg enabled hctrl).trans hq, hres.trans hz⟩

/-- Settles O58: of the operations that may write CODEC_CTRL or word 7, a write of CODEC_CTRL clears its own
request bit and RESET clears both words. -/
theorem stepKeepsRequestBitAndReservedWordClear : Obligations.StepKeepsRequestBitAndReservedWordClear := by
  intro s t hq hz h hnot
  rcases step_next_cases h with ⟨_, rfl⟩ | ⟨a, b, rest, _, rfl⟩ | ⟨d, rest, i, hp, hd, _, he⟩
  · exact ⟨hq, hz⟩
  · exact ⟨hq, hz⟩
  · refine exec_keeps_requestBit_and_reserved (s := { s with pending := rest }) ?_ hq hz he
    rintro w rfl
    exact hnot d rest w hp hd

/-- RST clears the words and the flags and keeps the rest (44_lifecycle.md R210). -/
theorem exec_rst (s : State) :
    exec .rst s = .next { s with regs := RegFile.zero, playActive := false, capActive := false } := rfl

/-- Settles O35: the row of RST decodes whatever its `arg` (30_encoding.md R100), and RST answers the cleared
state. -/
theorem resetZeroesWordsAndDeactivatesStreams : Obligations.ResetZeroesWordsAndDeactivatesStreams :=
  ⟨fun _ => rfl, RegFile.get_zero, exec_rst⟩

/-- Settles O38: construction and RST have the same words, all 0, and the same flags, both 0. -/
theorem constructionStateEqualsTheResetState : Obligations.ConstructionStateEqualsTheResetState :=
  ⟨RegFile.get_zero, rfl, rfl, fun s => ⟨_, exec_rst s, rfl, rfl, rfl⟩⟩

/-- Settles O59: the words and flags at reset are all 0, and its memory is empty. -/
theorem resetMeetsTheInvariants : Obligations.ResetMeetsTheInvariants :=
  ⟨⟨enabled_zero.symm, enabled_zero.symm⟩, Memory.wf_nil, enabled_zero, rfl⟩

end Sys2Proof.Machine
end

/-! The family of spec/10_state.md, part 3: one transfer, from the write of its counter to the next
(R52, R53). -/

section
namespace Sys2Proof.Machine

/-- A reflexive and transitive relation that holds over every operation allowed holds over a sequence of
them. -/
theorem runAll_rel {R : State → State → Prop} {P : Instr → Prop} (hrefl : ∀ s, R s s)
    (htrans : ∀ {s t u}, R s t → R t u → R s u) (hexec : ∀ {i s t}, P i → exec i s = .next t → R s t)
    {is : List Instr} {s t : State} (hP : ∀ i ∈ is, P i) (h : runAll is s = .next t) : R s t := by
  induction is generalizing s with
  | nil =>
    cases h
    exact hrefl _
  | cons i is ih =>
    rw [List.forall_mem_cons] at hP
    unfold runAll at h
    split at h
    · rename_i u hu
      exact htrans (hexec hP.1 hu) (ih hP.2 h)
    · cases h
    · cases h

/-- From `s` to `t` the counter of `ch` has not increased, and its cursor has advanced by what the counter
lost, modulo 2^32 (10_state.md R52). -/
def MovesTogether (ch : Channel) (s t : State) : Prop :=
  (t.regs.get ch.remaining).toNat ≤ (s.regs.get ch.remaining).toNat ∧
  t.regs.get ch.addr = s.regs.get ch.addr + (s.regs.get ch.remaining - t.regs.get ch.remaining)

theorem MovesTogether.of_eq {ch : Channel} {s t : State} (ha : t.regs.get ch.addr = s.regs.get ch.addr)
    (hr : t.regs.get ch.remaining = s.regs.get ch.remaining) : MovesTogether ch s t := by
  simp [MovesTogether, ha, hr]

theorem MovesTogether.trans {ch : Channel} {s t u : State} (h : MovesTogether ch s t)
    (h' : MovesTogether ch t u) : MovesTogether ch s u := by
  refine ⟨h'.1.trans h.1, ?_⟩
  rw [h'.2, h.2, BitVec.add_assoc, sub_add_sub_cancel]

/-- The counter after `n` bytes, no more than it had, is less by exactly `n`. -/
theorem toNat_sub_ofNat {w : Word} {n : Nat} (h : n ≤ w.toNat) :
    (w - BitVec.ofNat 32 n).toNat = w.toNat - n := by
  have := w.isLt
  rw [BitVec.toNat_sub_of_le (by rw [BitVec.le_def, BitVec.toNat_ofNat, Nat.mod_eq_of_lt (by omega)]; exact h),
    BitVec.toNat_ofNat, Nat.mod_eq_of_lt (by omega)]

theorem serviced_movesTogether {ch : Channel} {n : Nat} {s : State} (es : List Event) (mem : Memory)
    (sink : List Nat) (source : List (List Byte)) (hn : n ≤ (s.regs.get ch.remaining).toNat) :
    MovesTogether ch s (serviced ch n es mem sink source s) := by
  unfold MovesTogether
  rw [serviced_get_remaining, serviced_get_addr, toNat_sub_ofNat hn, sub_sub_cancel]
  exact ⟨Nat.sub_le _ _, rfl⟩

/-- One operation of a transfer moves cursor and counter together: the channel's own service by its commit,
any other by leaving both words. -/
theorem exec_movesTogether {ch : Channel} {i : Instr} {s t : State}
    (hi : servicedChannel i = some ch ∨ (ch.addr ∉ mayWrite i ∧ ch.remaining ∉ mayWrite i))
    (h : exec i s = .next t) : MovesTogether ch s t := by
  rcases hi with hs | ⟨ha, hr⟩
  · rcases exec_service_cases hs h with rfl | ⟨n, es, mem, sink, source, _, hn, _, rfl⟩
    · exact .of_eq rfl rfl
    · exact serviced_movesTogether es mem sink source hn
  · exact .of_eq (exec_get_of_notMem_mayWrite h ha) (exec_get_of_notMem_mayWrite h hr)

/-- Settles O46, by induction on the operations: moving together is reflexive and transitive. -/
theorem cursorAndCounterMoveTogether : Obligations.CursorAndCounterMoveTogether :=
  fun _ _ _ ch => runAll_rel (R := MovesTogether ch) (fun _ => .of_eq rfl rfl) MovesTogether.trans
    exec_movesTogether

/-- The operation from `s` to `t` is a service of `ch` that takes an enabled channel's counter from not 0
to 0 (10_state.md R53). -/
abbrev Completes (ch : Channel) (i : Instr) (s t : State) : Prop :=
  servicedChannel i = some ch ∧ (s.regs.get ch.ctrl).getLsbD 0 = true ∧ s.regs.get ch.remaining ≠ 0 ∧
    t.regs.get ch.remaining = 0

/-- A write of CODEC_CTRL pulses no completion line. -/
theorem pulseCount_doneLine_codecPulse (ch : Channel) (v : Word) (s : State) :
    pulseCount ch.doneLine (codecPulse v s).trace = pulseCount ch.doneLine s.trace := by
  rw [codecPulse_eq_emit, emit_trace, pulseCount_append, Nat.add_eq_left]
  split
  · rw [pulseCount_singleton_pulse, if_neg]
    split <;> cases ch <;> decide
  · rfl

/-- A service that ran its loop pulses a completion line once if it is its own channel's, the channel is
enabled and the counter is now 0, and else not. -/
theorem pulseCount_doneLine_serviced (ch d : Channel) (n : Nat) {es : List Event} (mem : Memory)
    (sink : List Nat) (source : List (List Byte)) (s : State) (hes : pulses es = []) :
    pulseCount ch.doneLine (serviced d n es mem sink source s).trace = pulseCount ch.doneLine s.trace +
      if d = ch ∧ enabled (s.regs.get d.ctrl) ∧ s.regs.get d.remaining - BitVec.ofNat 32 n = 0
        then 1 else 0 := by
  rw [serviced_trace, pulseCount_append, pulseCount_append, pulseCount_of_pulses_eq_nil hes, Nat.add_zero]
  congr 1
  by_cases hc : enabled (s.regs.get d.ctrl) ∧ s.regs.get d.remaining - BitVec.ofNat 32 n = 0
  · simp [hc, pulseCount_singleton_pulse, Channel.doneLine_inj]
  · rw [if_neg hc, if_neg (fun h => hc h.2)]
    rfl

/-- How often one operation pulses a completion line: once if it completes the channel's transfer, and else
not at all (10_state.md R53). -/
theorem exec_pulseCount_doneLine {i : Instr} {s t : State} (h : exec i s = .next t) (ch : Channel) :
    pulseCount ch.doneLine t.trace =
      pulseCount ch.doneLine s.trace + if Completes ch i s t then 1 else 0 := by
  cases exec_effect h with
  | report hs _ hes => simp [Completes, hs, hes]
  | command v => simp [Completes, servicedChannel, pulseCount_doneLine_codecPulse]
  | store _ hs | control _ _ hs => simp [Completes, hs]
  | reset | restore => simp [Completes, servicedChannel]
  | idle => rw [if_neg fun hc => hc.2.2.1 hc.2.2.2]; rfl
  | @service i d n es mem sink source hs _ hrem _ hes =>
    rw [pulseCount_doneLine_serviced ch d n mem sink source s hes]
    congr 1
    refine if_congr ?_ rfl rfl
    rw [Completes, hs, Option.some_inj]
    refine and_congr_right ?_
    rintro rfl
    rw [serviced_get_remaining]
    exact and_congr_right fun _ => (and_iff_right hrem).symm

/-- The completions a transfer in `s` can still have: one while its counter is not 0. -/
def completionsLeft (ch : Channel) (s : State) : Nat := if s.regs.get ch.remaining = 0 then 0 else 1

theorem completionsLeft_le_one (ch : Channel) (s : State) : completionsLeft ch s ≤ 1 := by
  unfold completionsLeft
  split <;> decide

/-- A counter at 0 stays there through an operation of a transfer. -/
theorem exec_remaining_eq_zero {ch : Channel} {i : Instr} {s t : State}
    (hi : servicedChannel i = some ch ∨ ch.remaining ∉ mayWrite i) (h : exec i s = .next t)
    (h0 : s.regs.get ch.remaining = 0) : t.regs.get ch.remaining = 0 := by
  rcases hi with hs | hr
  · have hle := (exec_movesTogether (.inl hs) h).1
    rw [h0] at hle
    exact BitVec.eq_of_toNat_eq (Nat.le_zero.mp hle)
  · rw [exec_get_of_notMem_mayWrite h hr, h0]

/-- From `s` to `t` every completion pulsed has been taken from those that were left. -/
def CompletionsPaid (ch : Channel) (s t : State) : Prop :=
  pulseCount ch.doneLine t.trace + completionsLeft ch t ≤
    pulseCount ch.doneLine s.trace + completionsLeft ch s

theorem CompletionsPaid.trans {ch : Channel} {s t u : State} (h : CompletionsPaid ch s t)
    (h' : CompletionsPaid ch t u) : CompletionsPaid ch s u := Nat.le_trans h' h

/-- An operation of a transfer pays for the completion it pulses: it is the one that was left. -/
theorem exec_completionsPaid {ch : Channel} {i : Instr} {s t : State}
    (hi : servicedChannel i = some ch ∨ ch.remaining ∉ mayWrite i) (h : exec i s = .next t) :
    CompletionsPaid ch s t := by
  unfold CompletionsPaid
  rw [exec_pulseCount_doneLine h]
  by_cases hc : Completes ch i s t
  · obtain ⟨_, _, hrem, hdone⟩ := id hc
    rw [if_pos hc, completionsLeft, completionsLeft, if_pos hdone, if_neg hrem]
  · rw [if_neg hc]
    refine Nat.add_le_add_left ?_ _
    by_cases h0 : s.regs.get ch.remaining = 0
    · rw [completionsLeft, if_pos (exec_remaining_eq_zero hi h h0)]
      exact Nat.zero_le _
    · rw [completionsLeft.eq_def ch s, if_neg h0]
      exact completionsLeft_le_one ch t

/-- Settles O47: the count of one operation says when a line is pulsed; over a sequence of operations every
pulse uses up the one completion that was left. -/
theorem completionFiresAtMostOncePerTransfer : Obligations.CompletionFiresAtMostOncePerTransfer := by
  refine ⟨fun i s t ch h => ?_, fun is s t ch hP h => ?_⟩
  · rw [exec_pulseCount_doneLine h, ne_eq, Nat.add_eq_left, ite_eq_right_iff]
    simp [Completes]
  · have hpaid : CompletionsPaid ch s t :=
      runAll_rel (R := CompletionsPaid ch) (fun _ => Nat.le_refl _) CompletionsPaid.trans exec_completionsPaid hP h
    have hleft := completionsLeft_le_one ch s
    unfold CompletionsPaid at hpaid
    omega

end Sys2Proof.Machine
end

/-! The family of spec/10_state.md, part 4: which words an operation reads (R33, R34, R35, R39). -/

section
namespace Sys2Proof

@[simp] theorem RegFile.set_set_self (x : RegFile) (r : Slot) (v w : Word) :
    (x.set r v).set r w = x.set r w := by
  cases r <;> rfl

theorem RegFile.set_comm (x : RegFile) {r q : Slot} (v w : Word) (h : q ≠ r) :
    (x.set r v).set q w = (x.set q w).set r v := by
  refine RegFile.ext_get fun p => ?_
  by_cases hq : p = q
  · subst hq
    rw [get_set_self, get_set_ne _ _ h, get_set_self]
  by_cases hr : p = r
  · subst hr
    rw [get_set_ne _ _ hq, get_set_self, get_set_self]
  rw [get_set_ne _ _ hq, get_set_ne _ _ hr, get_set_ne _ _ hr, get_set_ne _ _ hq]

@[simp] theorem RegFile.set_get_self (x : RegFile) (r : Slot) : x.set r (x.get r) = x := by
  cases r <;> rfl

end Sys2Proof

namespace Sys2Proof.Machine

/-- The words an operation's answer may depend on ("State read" of the rules of 40_register_read.md to
44_lifecycle.md); a write of one CTRL reads the other's when it re-evaluates (41_register_write.md R153). -/
def mayRead : Instr → List Slot
  | .rdCodecCtrl => [.codecCtrl]
  | .rdCodecAddr => [.codecAddr]
  | .rdCodecDataOut => [.codecDataOut]
  | .rdCodecDataIn => [.codecDataIn]
  | .rdPlayCtrl => [.playCtrl]
  | .rdPlayAddr => [.playAddr]
  | .rdPlayRemaining => [.playRemaining]
  | .rdCapCtrl => [.capCtrl]
  | .rdCapAddr => [.capAddr]
  | .rdCapRemaining => [.capRemaining]
  | .wrPlayCtrl _ => [.capCtrl]
  | .wrCapCtrl _ => [.playCtrl]
  | .psvc _ => [.playCtrl, .playAddr, .playRemaining]
  | .csvc _ => [.capCtrl, .capAddr, .capRemaining]
  | .rdReserved | .rdOutOfRange _ | .wrCodecCtrl _ | .wrCodecAddr _ | .wrCodecDataOut _ | .wrCodecDataIn _
  | .wrPlayAddr _ | .wrPlayRemaining _ | .wrCapAddr _ | .wrCapRemaining _ | .wrReserved _
  | .wrOutOfRange _ _ | .rst | .rstr _ => []

/-- An outcome with its next state, if it has one, changed by `f`. -/
def mapNext (f : State → State) : Host.Outcome State Fault Refusal → Host.Outcome State Fault Refusal
  | .next t => .next (f t)
  | .fault r => .fault r
  | .refused r => .refused r

section StoreFirst
variable {r q : Slot} {ch : Channel} (v w : Word) (s : State)

theorem emit_storeReg (es : List Event) : emit es (storeReg r v s) = storeReg r v (emit es s) := rfl

@[simp] theorem storeReg_storeReg_self : storeReg r w (storeReg r v s) = storeReg r w s := by
  simp [storeReg]

theorem storeReg_comm (h : q ≠ r) : storeReg q w (storeReg r v s) = storeReg r v (storeReg q w s) := by
  simp [storeReg, RegFile.set_comm _ _ _ h]

@[simp] theorem storeReg_get_self : storeReg r (s.regs.get r) s = s := by
  simp [storeReg]

theorem readReg_storeReg (h : q ≠ r) : readReg q (storeReg r v s) = storeReg r v (readReg q s) := by
  rw [readReg_eq_emit, readReg_eq_emit, storeReg_regs, RegFile.get_set_ne _ _ h, emit_storeReg]

theorem reservedDiag_storeReg (c : DiagCode) :
    reservedDiag c (storeReg r v s) = storeReg r v (reservedDiag c s) := by
  rw [reservedDiag_eq_emit, reservedDiag_eq_emit, emit_storeReg, storeReg_cfg]

theorem codecPulse_storeReg : codecPulse w (storeReg r v s) = storeReg r v (codecPulse w s) := by
  rw [codecPulse_eq_emit, codecPulse_eq_emit, emit_storeReg]

theorem reevaluate_storeReg (hp : .playCtrl ≠ r) (hc : .capCtrl ≠ r) :
    reevaluate (storeReg r v s) = storeReg r v (reevaluate s) := by
  simp [reevaluate, storeReg, RegFile.get_set_ne _ _ hp, RegFile.get_set_ne _ _ hc]

theorem commit_storeReg (n : Nat) (ha : ch.addr ≠ r) (hr : ch.remaining ≠ r) :
    commit ch n (storeReg r v s) = storeReg r v (commit ch n s) := by
  rw [commit, storeReg_regs, RegFile.get_set_ne _ _ hr, RegFile.get_set_ne _ _ ha, storeReg_comm _ _ _ ha,
    storeReg_comm _ _ _ hr, commit]

theorem complete_storeReg (hc : ch.ctrl ≠ r) (hr : ch.remaining ≠ r) :
    complete ch (storeReg r v s) = storeReg r v (complete ch s) := by
  rw [complete_eq_emit, complete_eq_emit, storeReg_regs, RegFile.get_set_ne _ _ hr,
    RegFile.get_set_ne _ _ hc, emit_storeReg]

theorem serviced_storeReg (n : Nat) (es : List Event) (mem : Memory) (sink : List Nat)
    (source : List (List Byte)) (hc : ch.ctrl ≠ r) (ha : ch.addr ≠ r) (hr : ch.remaining ≠ r) :
    serviced ch n es mem sink source (storeReg r v s) =
      storeReg r v (serviced ch n es mem sink source s) := by
  unfold serviced
  rw [← complete_storeReg _ _ hc hr, ← commit_storeReg _ _ _ ha hr, ← emit_storeReg]
  rfl

theorem want_storeReg (b : Nat) (hr : ch.remaining ≠ r) : want ch b (storeReg r v s) = want ch b s := by
  rw [want, storeReg_regs, RegFile.get_set_ne _ _ hr, want]

/-- A playback service does the same whatever a word it does not read holds. -/
theorem execPsvc_storeReg (b : Nat) (hc : .playCtrl ≠ r) (ha : .playAddr ≠ r) (hr : .playRemaining ≠ r) :
    execPsvc b (storeReg r v s) = mapNext (storeReg r v) (execPsvc b s) := by
  have hwant : want .play b (storeReg r v s) = want .play b s := want_storeReg _ _ _ hr
  simp only [execPsvc, hwant, storeReg_regs, RegFile.get_set_ne _ _ ha, storeReg_cfg, storeReg_mem,
    storeReg_sinkAnswers]
  split
  · rfl
  · rcases playLoop s.cfg s.mem _ _ s.sinkAnswers 0 with e | run
    · rfl
    · exact congrArg Host.Outcome.next (serviced_storeReg (ch := .play) _ _ _ _ _ _ _ hc ha hr)

/-- A capture service does the same whatever a word it does not read holds. -/
theorem execCsvc_storeReg (b : Nat) (hc : .capCtrl ≠ r) (ha : .capAddr ≠ r) (hr : .capRemaining ≠ r) :
    execCsvc b (storeReg r v s) = mapNext (storeReg r v) (execCsvc b s) := by
  have hwant : want .cap b (storeReg r v s) = want .cap b s := want_storeReg _ _ _ hr
  simp only [execCsvc, hwant, storeReg_regs, RegFile.get_set_ne _ _ ha, storeReg_cfg, storeReg_mem,
    storeReg_sourceAnswers]
  split
  · rfl
  · rcases capLoop s.cfg _ _ s.sourceAnswers s.mem 0 with e | run
    · rfl
    · exact congrArg Host.Outcome.next (serviced_storeReg (ch := .cap) _ _ _ _ _ _ _ hc ha hr)

/-- A write of one word overwrites a store to it made just before, and passes over a store to another. -/
theorem next_storeReg_storeReg :
    .next (storeReg q w (storeReg r v s)) =
      if r ∈ [q] then .next (storeReg q w s) else mapNext (storeReg r v) (.next (storeReg q w s)) := by
  by_cases h : r = q
  · subst h
    simp
  · simp [h, mapNext, storeReg_comm _ _ _ (Ne.symm h)]

/-- So does a write that re-evaluates the flags after it, if the other word is no CTRL. -/
theorem next_reevaluate_storeReg_storeReg (hctrl : r ≠ q → .playCtrl ≠ r ∧ .capCtrl ≠ r) :
    .next (reevaluate (storeReg q w (storeReg r v s))) =
      if r ∈ [q] then .next (reevaluate (storeReg q w s))
      else mapNext (storeReg r v) (.next (reevaluate (storeReg q w s))) := by
  by_cases h : r = q
  · subst h
    simp
  · obtain ⟨hp, hc⟩ := hctrl h
    simp [h, mapNext, storeReg_comm _ _ _ (Ne.symm h), reevaluate_storeReg _ _ hp hc]

end StoreFirst

/-- A word that an operation does not read makes no difference to it but in itself: what was stored there is
overwritten if the operation writes the word, and stays if it does not. -/
theorem exec_storeReg {i : Instr} {r : Slot} (hr : r ∉ mayRead i) (v : Word) (s : State) :
    exec i (storeReg r v s) =
      if r ∈ mayWrite i then exec i s else mapNext (storeReg r v) (exec i s) := by
  cases i with
  | rdCodecCtrl | rdCodecAddr | rdCodecDataOut | rdCodecDataIn | rdPlayCtrl | rdPlayAddr | rdPlayRemaining
  | rdCapCtrl | rdCapAddr | rdCapRemaining =>
    exact congrArg Host.Outcome.next (readReg_storeReg _ _ (List.ne_of_not_mem_cons hr).symm)
  | rdOutOfRange | wrOutOfRange => rfl
  | rdReserved => exact congrArg Host.Outcome.next (reservedDiag_storeReg v (returnData 0 s) _)
  | wrReserved => exact congrArg Host.Outcome.next (reservedDiag_storeReg v s _)
  | wrCodecCtrl w =>
    change Host.Outcome.next (storeReg .codecCtrl (codecStored w) (codecPulse w (storeReg r v s))) = _
    rw [codecPulse_storeReg]
    exact next_storeReg_storeReg ..
  | wrCodecAddr | wrCodecDataOut | wrCodecDataIn | wrPlayAddr | wrPlayRemaining | wrCapAddr
  | wrCapRemaining => exact next_storeReg_storeReg ..
  | wrPlayCtrl w =>
    exact next_reevaluate_storeReg_storeReg _ _ _ fun h => ⟨h.symm, (List.ne_of_not_mem_cons hr).symm⟩
  | wrCapCtrl w =>
    exact next_reevaluate_storeReg_storeReg _ _ _ fun h => ⟨(List.ne_of_not_mem_cons hr).symm, h.symm⟩
  | rst => exact (if_pos (mem_mayWrite_rst r)).symm
  | rstr => exact (if_pos (mem_mayWrite_rst r)).symm
  | psvc b =>
    simp only [mayRead, List.mem_cons, List.not_mem_nil, or_false, not_or, ← ne_eq] at hr
    obtain ⟨hc, ha, hn⟩ := hr
    rw [if_neg (by simp [mayWrite, ha, hn])]
    exact execPsvc_storeReg _ _ _ hc.symm ha.symm hn.symm
  | csvc b =>
    simp only [mayRead, List.mem_cons, List.not_mem_nil, or_false, not_or, ← ne_eq] at hr
    obtain ⟨hc, ha, hn⟩ := hr
    rw [if_neg (by simp [mayWrite, ha, hn])]
    exact execCsvc_storeReg _ _ _ hc.symm ha.symm hn.symm

/-- Two states that differ in one word the operation does not read are taken to states that differ in it at
most. -/
theorem exec_storeReg_next {i : Instr} {r : Slot} {s t : State} (hr : r ∉ mayRead i)
    (h : exec i s = .next t) (v : Word) : ∃ w, exec i (storeReg r v s) = .next (storeReg r w t) := by
  rw [exec_storeReg hr, h]
  split
  · exact ⟨t.regs.get r, by rw [storeReg_get_self]⟩
  · exact ⟨v, rfl⟩

/-- Two states that differ in one word the operation does not read are refused alike. -/
theorem exec_storeReg_refused {i : Instr} {r : Slot} {s : State} {e : Refusal} (hr : r ∉ mayRead i)
    (h : exec i s = .refused e) (v : Word) : exec i (storeReg r v s) = .refused e := by
  rw [exec_storeReg hr, h]
  exact ite_self _

/-- No operation reads the reserved word (10_state.md R39, D1). -/
theorem reserved_notMem_mayRead (i : Instr) : .reserved ∉ mayRead i := by
  cases i <;> simp [mayRead]

/-- Each of the three opaque codec words is read by its own register read alone (10_state.md R33, R34, R35). -/
theorem codecWords_notMem_mayRead {i : Instr} (ha : i ≠ .rdCodecAddr) (ho : i ≠ .rdCodecDataOut)
    (hd : i ≠ .rdCodecDataIn) :
    .codecAddr ∉ mayRead i ∧ .codecDataOut ∉ mayRead i ∧ .codecDataIn ∉ mayRead i := by
  cases i with
  | rdCodecAddr => exact absurd rfl ha
  | rdCodecDataOut => exact absurd rfl ho
  | rdCodecDataIn => exact absurd rfl hd
  | _ => simp [mayRead]

/-- Settles O49: word 7 is read by no operation. -/
theorem reservedWordIsNeverRead : Obligations.ReservedWordIsNeverRead :=
  fun i _ v => ⟨fun _ h => exec_storeReg_next (reserved_notMem_mayRead i) h v,
    fun _ h => exec_storeReg_refused (reserved_notMem_mayRead i) h v⟩

/-- Settles O50: the operation reads none of the three words, so each can be replaced in turn. -/
theorem opaqueCodecWordsAreNeverInterpreted : Obligations.OpaqueCodecWordsAreNeverInterpreted := by
  intro i s a o d hna hno hnd
  obtain ⟨ha, ho, hd⟩ := codecWords_notMem_mayRead hna hno hnd
  refine ⟨fun t h => ?_, fun e h =>
    exec_storeReg_refused hd (exec_storeReg_refused ho (exec_storeReg_refused ha h a) o) d⟩
  obtain ⟨a', h⟩ := exec_storeReg_next ha h a
  obtain ⟨o', h⟩ := exec_storeReg_next ho h o
  obtain ⟨d', h⟩ := exec_storeReg_next hd h d
  exact ⟨a', o', d', h⟩

end Sys2Proof.Machine
end

/-! The family of spec/20_memory.md, part 1: which operations change host memory and the stream flags, host stores,
word accesses and the reads of named registers. -/

section
namespace Sys2Proof.Machine

/-- A playback service does not store to host memory (20_memory.md R70). -/
theorem execPsvc_mem {b : Nat} {s t : State} (h : execPsvc b s = .next t) : t.mem = s.mem := by
  rcases execPsvc_next h with ⟨_, rfl⟩ | ⟨_, run, _, _, rfl⟩
  · rfl
  · rw [playFinish_eq]

/-- A capture service leaves canonical memory canonical. -/
theorem execCsvc_memCanonical {b : Nat} {s t : State} (hs : MemCanonical s) (h : execCsvc b s = .next t) :
    MemCanonical t := by
  rcases execCsvc_next h with ⟨_, rfl⟩ | ⟨_, run, _, hl, rfl⟩
  · exact hs
  · rw [capFinish_eq]
    exact capLoop_wf _ hl hs

/-- No operation but a capture service changes host memory (20_memory.md R70). -/
theorem exec_mem_of_ne_csvc {i : Instr} {s t : State} (hi : ∀ b, i ≠ .csvc b) (h : exec i s = .next t) :
    t.mem = s.mem := by
  cases exec_effect h with
  | report | store | control | reset | restore | idle => rfl
  | command v => rw [codecPulse_eq_emit]; rfl
  | service hs =>
    cases i with
    | psvc b => exact execPsvc_mem h
    | csvc b => exact absurd rfl (hi b)
    | _ => cases hs

/-- Every operation keeps host memory canonical. -/
theorem exec_keeps_memCanonical (i : Instr) (s t : State) (hs : MemCanonical s) (h : exec i s = .next t) :
    MemCanonical t := by
  by_cases hi : ∃ b, i = .csvc b
  · obtain ⟨b, rfl⟩ := hi
    exact execCsvc_memCanonical hs h
  · rw [MemCanonical, exec_mem_of_ne_csvc (not_exists.mp hi) h]
    exact hs

/-- Settles O57: a host store and the stores of a capture service keep the canonical form, and nothing else
stores. -/
theorem stepKeepsMemoryCanonical : Obligations.StepKeepsMemoryCanonical :=
  fun _ _ => step_keeps (fun _ _ hs => hs) (fun _ a b hs => Memory.wf_write hs a b) exec_keeps_memCanonical

/-- What writes the CTRL word of a DMA channel and no other word is a write of PLAY_CTRL or of CAP_CTRL. -/
theorem eq_wrCtrl_of_mayWrite {i : Instr} {ch : Channel} (h : mayWrite i = [ch.ctrl]) :
    (∃ v, i = .wrPlayCtrl v) ∨ ∃ v, i = .wrCapCtrl v := by
  cases i with
  | wrPlayCtrl v => exact .inl ⟨v, rfl⟩
  | wrCapCtrl v => exact .inr ⟨v, rfl⟩
  | _ => cases ch <;> cases h

/-- No operation but a write of a DMA channel's CTRL, RESET and RESTORE changes a stream flag
(10_state.md R46, R47). -/
theorem exec_flags_of_ne_ctrl {i : Instr} {s t : State} (hp : ∀ v, i ≠ .wrPlayCtrl v)
    (hc : ∀ v, i ≠ .wrCapCtrl v) (hrst : i ≠ .rst) (hrstr : ∀ w, i ≠ .rstr w) (h : exec i s = .next t) :
    t.playActive = s.playActive ∧ t.capActive = s.capActive := by
  cases exec_effect h with
  | report | store | idle => exact ⟨rfl, rfl⟩
  | command v => rw [codecPulse_eq_emit]; exact ⟨rfl, rfl⟩
  | control ch v _ hw =>
    rcases eq_wrCtrl_of_mayWrite hw with ⟨w, rfl⟩ | ⟨w, rfl⟩
    · exact absurd rfl (hp w)
    · exact absurd rfl (hc w)
  | reset => exact absurd rfl hrst
  | restore w => exact absurd rfl (hrstr w)
  | service => exact ⟨serviced_playActive .., serviced_capActive ..⟩

/-- Settles O41: the memory of an operation that is no CSVC, and the flags of one that is no writer of theirs. -/
theorem hostMemoryAndStreamFlagsChangeOnlyByTheirWriters :
    Obligations.HostMemoryAndStreamFlagsChangeOnlyByTheirWriters :=
  fun _ _ _ h => ⟨fun hi => exec_mem_of_ne_csvc hi h,
    fun hp hc hrst hrstr => exec_flags_of_ne_ctrl hp hc hrst hrstr h⟩

/-- With no input pending a step answers the same state (00_scope.md R5). -/
theorem step_idle {s : State} (h : s.pending = []) : step s = .next s := by
  unfold step
  rw [h]

/-- A pending host store is taken whole by one step (20_memory.md R80, R83). -/
theorem step_hostStore {s : State} {a : Nat} {v : Byte} {rest : List Input}
    (h : s.pending = .hostStore a v :: rest) :
    step s = .next (hostStore a v { s with pending := rest }) := by
  unfold step
  rw [h]

/-- Settles O54: the step is the host store, after which canonical memory reads as before but at the byte
stored. -/
theorem hostStoreAndIdleSteps : Obligations.HostStoreAndIdleSteps := by
  refine ⟨fun s => step_idle, fun s a v rest hm hp => ⟨_, step_hostStore hp, rfl, ?_, fun x hx => ?_⟩⟩
  · exact (Memory.read_write hm a v a).trans (if_pos rfl)
  · exact (Memory.read_write hm a v x).trans (if_neg hx)

/-- Settles O6: the condition of `hostAccessIndex` is that of R62 and R63. -/
theorem onlyAlignedWordAccessesHaveAnIndex : Obligations.OnlyAlignedWordAccessesHaveAnIndex :=
  fun _ _ => ⟨fun hw ho => if_pos ⟨hw, ho⟩, fun h => if_neg (not_and_or.mpr h)⟩

/-- The read row of a named register answers its word and keeps the rest (40_register_read.md R120). -/
theorem exec_readSlot {r : Slot} (hr : r ≠ .reserved) (s : State) :
    exec (.readSlot r) s = .next { s with trace := s.trace ++ [.readData (s.regs.get r)] } := by
  cases r with
  | reserved => exact absurd rfl hr
  | _ => rfl

/-- Settles O7: the ten rows decode by evaluation, and each is the read row of its slot. -/
theorem namedRegisterReadsReturnTheStoredWord : Obligations.NamedRegisterReadsReturnTheStoredWord :=
  ⟨rfl, rfl, rfl, rfl, rfl, rfl, rfl, rfl, rfl, rfl, fun s =>
    ⟨exec_readSlot (r := .codecCtrl) nofun s, exec_readSlot (r := .codecAddr) nofun s,
      exec_readSlot (r := .codecDataOut) nofun s, exec_readSlot (r := .codecDataIn) nofun s,
      exec_readSlot (r := .playCtrl) nofun s, exec_readSlot (r := .playAddr) nofun s,
      exec_readSlot (r := .playRemaining) nofun s, exec_readSlot (r := .capCtrl) nofun s,
      exec_readSlot (r := .capAddr) nofun s, exec_readSlot (r := .capRemaining) nofun s⟩⟩

end Sys2Proof.Machine
end

/-! The family of spec/20_memory.md, part 2: the reasons to refuse a burst (R71, R74, R75), in the words of the spec
and in the model's. -/

section
namespace Sys2Proof.Machine

section BurstRefusal
open Pseudocode
variable {cfg : Config} {ch : Channel} {cursor : Word} {n : Nat}

/-- A burst touches a region when one of its bytes lies in it. -/
theorem burstTouches_iff {r : Region} :
    burstTouches cfg cursor n r = true ↔
      ∃ k < n, r.base ≤ byteAddr cfg cursor k ∧ byteAddr cfg cursor k < r.base + r.size := by
  simp only [burstTouches, burstAddrs, covers, List.any_map, List.any_eq_true, List.mem_range,
    Function.comp_apply, Bool.and_eq_true, decide_eq_true_eq]
  rfl

/-- The check of the register window is the spec's (20_memory.md R75). -/
theorem touchesWindow_iff : touchesWindow cfg cursor n = true ↔ CoversWindow cfg cursor n := by
  unfold touchesWindow CoversWindow
  cases cfg.windowBase with
  | none => simp
  | some base => simp [burstTouches_iff, windowBytes]

/-- The check of the addresses with read side effects is the spec's (20_memory.md R74). -/
theorem readsSideEffects_iff :
    cfg.readSideEffects.any (burstTouches cfg cursor n) = true ↔ CoversSideEffects cfg cursor n := by
  simp only [List.any_eq_true, burstTouches_iff, CoversSideEffects]

theorem burstRefusal_of_crossesTop (ht : CrossesTop cfg cursor n) :
    burstRefusal cfg ch cursor n = some .burstCrossesTop := if_pos ht

theorem burstRefusal_of_coversWindow (ht : ¬ CrossesTop cfg cursor n) (hw : CoversWindow cfg cursor n) :
    burstRefusal cfg ch cursor n = some .burstCoversWindow :=
  (if_neg ht).trans (if_pos (touchesWindow_iff.mpr hw))

theorem burstRefusal_of_coversSideEffects (ht : ¬ CrossesTop cfg cursor n)
    (hw : ¬ CoversWindow cfg cursor n) (he : CoversSideEffects cfg cursor n) :
    burstRefusal cfg .play cursor n = some .burstReadsSideEffects :=
  (if_neg ht).trans <| (if_neg (mt touchesWindow_iff.mp hw)).trans <|
    if_pos ⟨rfl, readsSideEffects_iff.mpr he⟩

theorem burstRefusal_eq_none_of_covers_nothing (ht : ¬ CrossesTop cfg cursor n)
    (hw : ¬ CoversWindow cfg cursor n) (he : ch = .play → ¬ CoversSideEffects cfg cursor n) :
    burstRefusal cfg ch cursor n = none :=
  (if_neg ht).trans <| (if_neg (mt touchesWindow_iff.mp hw)).trans <|
    if_neg fun ⟨hc, hs⟩ => he hc (readsSideEffects_iff.mp hs)

/-- A playback burst is refused exactly when the spec gives a read burst no meaning. -/
theorem burstRefusal_play_eq_none_iff :
    burstRefusal cfg .play cursor n = none ↔ ¬ ReadForbidden cfg cursor n := by
  by_cases ht : CrossesTop cfg cursor n
  · simp [burstRefusal_of_crossesTop ht, ReadForbidden, ht]
  by_cases hw : CoversWindow cfg cursor n
  · simp [burstRefusal_of_coversWindow ht hw, ReadForbidden, hw]
  by_cases he : CoversSideEffects cfg cursor n
  · simp [burstRefusal_of_coversSideEffects ht hw he, ReadForbidden, he]
  · simp [burstRefusal_eq_none_of_covers_nothing ht hw fun _ => he, ReadForbidden, ht, hw, he]

/-- A capture burst is refused exactly when the spec gives a write burst no meaning. -/
theorem burstRefusal_cap_eq_none_iff :
    burstRefusal cfg .cap cursor n = none ↔ ¬ WriteForbidden cfg cursor n := by
  by_cases ht : CrossesTop cfg cursor n
  · simp [burstRefusal_of_crossesTop ht, WriteForbidden, ht]
  by_cases hw : CoversWindow cfg cursor n
  · simp [burstRefusal_of_coversWindow ht hw, WriteForbidden, hw]
  · simp [burstRefusal_eq_none_of_covers_nothing (ch := .cap) ht hw nofun, WriteForbidden, ht, hw]

/-- No capture burst is refused for read side effects (20_memory.md R74). -/
theorem burstRefusal_cap_ne_readsSideEffects :
    burstRefusal cfg .cap cursor n ≠ some .burstReadsSideEffects := by
  by_cases ht : CrossesTop cfg cursor n
  · simp [burstRefusal_of_crossesTop ht]
  by_cases hw : CoversWindow cfg cursor n
  · simp [burstRefusal_of_coversWindow ht hw]
  · simp [burstRefusal_eq_none_of_covers_nothing (ch := .cap) ht hw nofun]

end BurstRefusal
end Sys2Proof.Machine
end

/-! The family of spec/20_memory.md, part 3: the iterations of R170 and R190 beside the model's chunk loops, and the
service that is refused at its first forbidden burst. -/

section
namespace Sys2Proof.Machine
open Pseudocode

/-- The bursts of a service, iteration by iteration, have a first one that is refused, and its reason is `r`. -/
def FirstRefusal (cfg : Config) (ch : Channel) (bursts : Nat → Option (Word × Nat)) (r : Refusal) : Prop :=
  ∃ j cursor n, bursts j = some (cursor, n) ∧ burstRefusal cfg ch cursor n = some r ∧
    ∀ i < j, ∀ c m, bursts i = some (c, m) → burstRefusal cfg ch c m = none

section FirstRefusal
variable {cfg : Config} {ch : Channel} {bursts : Nat → Option (Word × Nat)} {r : Refusal}

theorem not_firstRefusal_of_no_burst (h : ∀ j, bursts j = none) : ¬ FirstRefusal cfg ch bursts r := by
  rintro ⟨j, c, n, hj, _⟩
  rw [h j] at hj
  cases hj

/-- If the burst of the first iteration is refused, it is the first. -/
theorem firstRefusal_iff_of_refusal {cursor : Word} {n : Nat} {q : Refusal}
    (h0 : bursts 0 = some (cursor, n)) (hq : burstRefusal cfg ch cursor n = some q) :
    FirstRefusal cfg ch bursts r ↔ q = r := by
  constructor
  · rintro ⟨j, c, m, hj, hr, hbefore⟩
    cases j with
    | zero =>
      cases h0.symm.trans hj
      exact Option.some.inj (hq.symm.trans hr)
    | succ j =>
      cases hq.symm.trans (hbefore 0 j.succ_pos _ _ h0)
  · rintro rfl
    exact ⟨0, cursor, n, h0, hq, nofun⟩

/-- If the first iteration makes no burst that is refused, what is refused first comes in those after it. -/
theorem firstRefusal_iff_tail (h0 : ∀ c m, bursts 0 = some (c, m) → burstRefusal cfg ch c m = none) :
    FirstRefusal cfg ch bursts r ↔ FirstRefusal cfg ch (fun j => bursts (j + 1)) r := by
  constructor
  · rintro ⟨j, c, m, hj, hr, hbefore⟩
    cases j with
    | zero => cases (h0 c m hj).symm.trans hr
    | succ j => exact ⟨j, c, m, hj, hr, fun i hi => hbefore (i + 1) (Nat.succ_lt_succ hi)⟩
  · rintro ⟨j, c, m, hj, hr, hbefore⟩
    refine ⟨j + 1, c, m, hj, hr, fun i hi => ?_⟩
    cases i with
    | zero => exact h0
    | succ i => exact hbefore i (Nat.lt_of_succ_lt_succ hi)

end FirstRefusal

section Playback
variable {cfg : Config} {mem : Memory} {base : Word} {want done : Nat} {answers : List Nat}

/-! One pass of the playback loop: an equation for each thing it can do. -/

theorem playLoop_of_le (h : want ≤ done) :
    playLoop cfg mem base want answers done = .ok ⟨done, answers, []⟩ := by
  unfold playLoop
  exact if_pos h

theorem playLoop_of_refusal {r : Refusal} (h : done < want)
    (hr : burstRefusal cfg .play (localCursor base done) (chunkSize cfg want done) = some r) :
    playLoop cfg mem base want answers done = .error r := by
  unfold playLoop
  rw [if_neg (Nat.not_le.mpr h), hr]

theorem playLoop_of_zero (h : done < want)
    (hr : burstRefusal cfg .play (localCursor base done) (chunkSize cfg want done) = none)
    (h0 : taken (answers.headD 0) (chunkSize cfg want done) = 0) :
    playLoop cfg mem base want answers done =
      .ok ⟨done, answers.tail, [playOffer cfg mem base want done (answers.headD 0)]⟩ := by
  unfold playLoop playOffer
  rw [if_neg (Nat.not_le.mpr h), hr, h0]
  cases answers with
  | nil => rfl
  | cons a rest => exact if_pos h0

theorem playLoop_of_pos (h : done < want)
    (hr : burstRefusal cfg .play (localCursor base done) (chunkSize cfg want done) = none)
    (h0 : taken (answers.headD 0) (chunkSize cfg want done) ≠ 0) :
    playLoop cfg mem base want answers done =
      (playLoop cfg mem base want answers.tail
        (done + taken (answers.headD 0) (chunkSize cfg want done))).map
        (PlayRun.after (playOffer cfg mem base want done (answers.headD 0))) := by
  cases answers with
  | nil => exact absurd (Nat.zero_min _) h0
  | cons a rest =>
    rw [playLoop, if_neg (Nat.not_le.mpr h), hr]
    exact if_neg h0

end Playback

/-- A run that goes on after an event is refused as the rest of it is. -/
theorem map_eq_error_iff {α β : Type} {x : Except Refusal α} {f : α → β} {r : Refusal} :
    x.map f = .error r ↔ x = .error r := by
  cases x <;> simp [Except.map]

section PlayIterations
variable {s : State} {want : Nat} {l : PlayLoop}

/-- The burst an iteration of R170 makes from where the loop stands, if it makes one: its cursor and its size. -/
def playBurstFrom (s : State) (want : Nat) (l : PlayLoop) : Option (Word × Nat) :=
  if l.stopped ∨ want ≤ l.done then none
  else some (localCursor s.regs.playAddr l.done, chunkSize s.cfg want l.done)

/-- The burst of iteration `j` of R170, counted from where the loop stands. -/
def playBursts (s : State) (want : Nat) (l : PlayLoop) (j : Nat) : Option (Word × Nat) :=
  playBurstFrom s want ((playIter s want)^[j] l)

theorem playBurst_eq (s : State) (want : Nat) :
    playBurst s want = playBursts s want ⟨0, s.sinkAnswers, [], false⟩ := rfl

theorem playBursts_of_ended (h : l.stopped ∨ want ≤ l.done) (j : Nat) : playBursts s want l j = none := by
  have hfix : playIter s want l = l := if_pos h
  unfold playBursts playBurstFrom
  rw [Function.iterate_fixed hfix, if_pos h]

/-- An iteration of R170 that is made, in the words of the model's loop. -/
theorem playIter_of_lt {done : Nat} {answers : List Nat} {offers : List Event} (h : done < want) :
    playIter s want ⟨done, answers, offers, false⟩ =
      ⟨done + taken (answers.headD 0) (chunkSize s.cfg want done), answers.tail,
        offers ++ [playOffer s.cfg s.mem s.regs.playAddr want done (answers.headD 0)],
        taken (answers.headD 0) (chunkSize s.cfg want done) == 0⟩ := by
  unfold playIter playOffer memRead burstAddrs
  rw [if_neg (by simp [h]), List.map_map]
  rfl

theorem playBursts_succ (j : Nat) : playBursts s want l (j + 1) = playBursts s want (playIter s want l) j := rfl

end PlayIterations

/-- The playback loop is refused exactly at the first forbidden burst of the iterations of R170 from the same
place. -/
theorem playLoop_eq_error_iff {s : State} {want done : Nat} (answers : List Nat) (offers : List Event)
    {r : Refusal} :
    playLoop s.cfg s.mem s.regs.playAddr want answers done = .error r ↔
      FirstRefusal s.cfg .play (playBursts s want ⟨done, answers, offers, false⟩) r := by
  by_cases hle : want ≤ done
  · rw [playLoop_of_le hle]
    exact iff_of_false nofun (not_firstRefusal_of_no_burst (playBursts_of_ended (.inr hle)))
  have hlt : done < want := Nat.not_le.mp hle
  have hburst : playBursts s want ⟨done, answers, offers, false⟩ 0 =
      some (localCursor s.regs.playAddr done, chunkSize s.cfg want done) :=
    if_neg (not_or.mpr ⟨Bool.false_ne_true, hle⟩)
  cases hr : burstRefusal s.cfg .play (localCursor s.regs.playAddr done) (chunkSize s.cfg want done) with
  | some q =>
    rw [playLoop_of_refusal hlt hr, firstRefusal_iff_of_refusal hburst hr, Except.error.injEq]
  | none =>
    rw [firstRefusal_iff_tail (by rw [hburst]; rintro _ _ ⟨⟩; exact hr)]
    simp only [playBursts_succ, playIter_of_lt hlt]
    by_cases h0 : taken (answers.headD 0) (chunkSize s.cfg want done) = 0
    · rw [playLoop_of_zero hlt hr h0]
      exact iff_of_false nofun (not_firstRefusal_of_no_burst (playBursts_of_ended (.inl (beq_iff_eq.mpr h0))))
    · rw [playLoop_of_pos hlt hr h0, map_eq_error_iff, beq_eq_false_iff_ne.mpr h0]
      exact playLoop_eq_error_iff answers.tail _
termination_by want - done
decreasing_by omega

/-- PSVC is refused as its chunk loop is: one that wants nothing makes no burst. -/
theorem execPsvc_refused_iff {b : Nat} {s : State} {r : Refusal} :
    execPsvc b s = .refused r ↔
      playLoop s.cfg s.mem (s.regs.get .playAddr) (want .play b s) s.sinkAnswers 0 = .error r := by
  unfold execPsvc
  split
  · rename_i h0
    rw [playLoop_of_le (Nat.le_of_eq h0)]
    exact iff_of_false nofun nofun
  · split <;> simp [*]

/-- PSVC is refused exactly at the first forbidden burst of R170. -/
theorem exec_psvc_refused_iff {b : Nat} {s : State} {r : Refusal} :
    exec (.psvc b) s = .refused r ↔
      FirstRefusal s.cfg .play (playBurst s (min s.regs.playRemaining.toNat b)) r := by
  rw [playBurst_eq]
  exact execPsvc_refused_iff.trans (playLoop_eq_error_iff s.sinkAnswers [])

/-- Settles O28: PSVC is refused exactly at the first burst that has a refusal, and a playback burst has one
exactly when it is forbidden. -/
theorem forbiddenPlaybackBurstIsRefused : Obligations.ForbiddenPlaybackBurstIsRefused := by
  refine fun b s => ⟨fun j cursor n hj hbefore => ?_, fun r hr => ?_⟩
  · have refused {r} (hr : burstRefusal s.cfg .play cursor n = some r) : exec (.psvc b) s = .refused r :=
      exec_psvc_refused_iff.mpr ⟨j, cursor, n, hj, hr, fun i hi c m hb =>
        burstRefusal_play_eq_none_iff.mpr (hbefore i hi c m hb)⟩
    exact ⟨fun ht => refused (burstRefusal_of_crossesTop ht),
      fun ht hw => refused (burstRefusal_of_coversWindow ht hw),
      fun ht hw he => refused (burstRefusal_of_coversSideEffects ht hw he)⟩
  · obtain ⟨j, cursor, n, hj, hq, _⟩ := exec_psvc_refused_iff.mp hr
    refine ⟨j, cursor, n, hj, by_contra fun hf => ?_⟩
    cases (burstRefusal_play_eq_none_iff.mpr hf).symm.trans hq

theorem produced_nil_length (chunk : Nat) : (produced [] chunk).length = 0 := by
  rw [produced, List.take_nil, List.length_nil]

section Capture
variable {cfg : Config} {mem : Memory} {base : Word} {want done : Nat} {answers : List (List Byte)}

/-! One pass of the capture loop: an equation for each thing it can do. -/

theorem capLoop_of_le (h : want ≤ done) :
    capLoop cfg base want answers mem done = .ok ⟨done, mem, answers, []⟩ := by
  unfold capLoop
  exact if_pos h

theorem capLoop_of_empty (h : done < want)
    (h0 : (produced (answers.headD []) (chunkSize cfg want done)).length = 0) :
    capLoop cfg base want answers mem done =
      .ok ⟨done, mem, answers.tail, [capPull cfg want done (answers.headD [])]⟩ := by
  unfold capLoop capPull
  rw [if_neg (Nat.not_le.mpr h), List.length_eq_zero_iff.mp h0]
  cases answers with
  | nil => rfl
  | cons burst rest => exact if_pos h0

theorem capLoop_of_refusal {r : Refusal} (h : done < want)
    (h0 : (produced (answers.headD []) (chunkSize cfg want done)).length ≠ 0)
    (hr : burstRefusal cfg .cap (localCursor base done)
      (produced (answers.headD []) (chunkSize cfg want done)).length = some r) :
    capLoop cfg base want answers mem done = .error r := by
  cases answers with
  | nil => exact absurd (produced_nil_length _) h0
  | cons burst rest =>
    unfold capLoop
    rw [if_neg (Nat.not_le.mpr h)]
    exact (if_neg h0).trans (by rw [show burst = (burst :: rest).headD [] from rfl, hr])

theorem capLoop_of_pos (h : done < want)
    (h0 : (produced (answers.headD []) (chunkSize cfg want done)).length ≠ 0)
    (hr : burstRefusal cfg .cap (localCursor base done)
      (produced (answers.headD []) (chunkSize cfg want done)).length = none) :
    capLoop cfg base want answers mem done =
      (capLoop cfg base want answers.tail
        (memWrite cfg mem (localCursor base done) (produced (answers.headD []) (chunkSize cfg want done)))
        (done + (produced (answers.headD []) (chunkSize cfg want done)).length)).map
        (CapRun.after (capPull cfg want done (answers.headD []))) := by
  cases answers with
  | nil => exact absurd (produced_nil_length _) h0
  | cons burst rest =>
    rw [capLoop, if_neg (Nat.not_le.mpr h)]
    exact (if_neg h0).trans (by rw [show burst = (burst :: rest).headD [] from rfl, hr]; rfl)

end Capture

section CapIterations
variable {s : State} {want : Nat} {l : CapLoop}

/-- The burst an iteration of R190 makes from where the loop stands, if it makes one, the bytes the source
produced: its cursor and its size. -/
def capBurstFrom (s : State) (want : Nat) (l : CapLoop) : Option (Word × Nat) :=
  let p := (produced (l.answers.headD []) (chunkSize s.cfg want l.done)).length
  if l.stopped ∨ want ≤ l.done ∨ p = 0 then none
  else some (localCursor s.regs.capAddr l.done, p)

/-- The burst of iteration `j` of R190, counted from where the loop stands. -/
def capBursts (s : State) (want : Nat) (l : CapLoop) (j : Nat) : Option (Word × Nat) :=
  capBurstFrom s want ((capIter s want)^[j] l)

theorem capBurst_eq (s : State) (want : Nat) :
    capBurst s want = capBursts s want ⟨0, s.mem, s.sourceAnswers, [], false⟩ := by
  funext j
  simp only [capBursts, capBurstFrom, produced, List.length_take]
  rfl

theorem capBursts_succ (j : Nat) : capBursts s want l (j + 1) = capBursts s want (capIter s want l) j := rfl

theorem capBursts_of_ended (h : l.stopped ∨ want ≤ l.done) (j : Nat) : capBursts s want l j = none := by
  have hfix : capIter s want l = l := if_pos h
  unfold capBursts capBurstFrom
  rw [Function.iterate_fixed hfix]
  exact if_pos (h.imp_right .inl)

/-- A burst store is the stores of its bytes in order, each at its address (20_memory.md R71). -/
theorem memWriteFrom_eq_foldl (cfg : Config) (cursor : Word) (m : Memory) (k : Nat) (bs : List Byte) :
    memWriteFrom cfg cursor m k bs =
      (bs.zipIdx k).foldl (fun m bk => m.write (physAddr cfg cursor bk.2) bk.1) m := by
  induction bs generalizing m k with
  | nil => rfl
  | cons b bs ih => exact ih _ _

/-- An iteration of R190 that is made, in the words of the model's loop. -/
theorem capIter_of_lt {done : Nat} {mem : Memory} {answers : List (List Byte)} {pulls : List Event}
    (h : done < want) :
    capIter s want ⟨done, mem, answers, pulls, false⟩ =
      ⟨done + (produced (answers.headD []) (chunkSize s.cfg want done)).length,
        memWrite s.cfg mem (localCursor s.regs.capAddr done)
          (produced (answers.headD []) (chunkSize s.cfg want done)),
        answers.tail, pulls ++ [capPull s.cfg want done (answers.headD [])],
        (produced (answers.headD []) (chunkSize s.cfg want done)).length == 0⟩ := by
  unfold capIter memWrite
  rw [if_neg (by simp [h]), memWriteFrom_eq_foldl]
  rfl

end CapIterations

/-- The capture loop is refused exactly at the first forbidden burst of the iterations of R190 from the same
place. -/
theorem capLoop_eq_error_iff {s : State} {want done : Nat} (mem : Memory) (answers : List (List Byte))
    (pulls : List Event) {r : Refusal} :
    capLoop s.cfg s.regs.capAddr want answers mem done = .error r ↔
      FirstRefusal s.cfg .cap (capBursts s want ⟨done, mem, answers, pulls, false⟩) r := by
  by_cases hle : want ≤ done
  · rw [capLoop_of_le hle]
    exact iff_of_false nofun (not_firstRefusal_of_no_burst (capBursts_of_ended (.inr hle)))
  have hlt : done < want := Nat.not_le.mp hle
  by_cases h0 : (produced (answers.headD []) (chunkSize s.cfg want done)).length = 0
  · have hburst : capBursts s want ⟨done, mem, answers, pulls, false⟩ 0 = none := if_pos (.inr (.inr h0))
    rw [capLoop_of_empty hlt h0, firstRefusal_iff_tail (by rw [hburst]; nofun)]
    simp only [capBursts_succ, capIter_of_lt hlt]
    exact iff_of_false nofun (not_firstRefusal_of_no_burst (capBursts_of_ended (.inl (beq_iff_eq.mpr h0))))
  have hburst : capBursts s want ⟨done, mem, answers, pulls, false⟩ 0 =
      some (localCursor s.regs.capAddr done,
        (produced (answers.headD []) (chunkSize s.cfg want done)).length) :=
        if_neg (not_or.mpr ⟨Bool.false_ne_true, not_or.mpr ⟨hle, h0⟩⟩)
  cases hr : burstRefusal s.cfg .cap (localCursor s.regs.capAddr done)
      (produced (answers.headD []) (chunkSize s.cfg want done)).length with
  | some q =>
    rw [capLoop_of_refusal hlt h0 hr, firstRefusal_iff_of_refusal hburst hr, Except.error.injEq]
  | none =>
    rw [firstRefusal_iff_tail (by rw [hburst]; rintro _ _ ⟨⟩; exact hr)]
    simp only [capBursts_succ, capIter_of_lt hlt]
    rw [capLoop_of_pos hlt h0 hr, map_eq_error_iff, beq_eq_false_iff_ne.mpr h0]
    exact capLoop_eq_error_iff _ answers.tail _
termination_by want - done
decreasing_by omega

/-- CSVC is refused as its chunk loop is: one that wants nothing makes no burst. -/
theorem execCsvc_refused_iff {b : Nat} {s : State} {r : Refusal} :
    execCsvc b s = .refused r ↔
      capLoop s.cfg (s.regs.get .capAddr) (want .cap b s) s.sourceAnswers s.mem 0 = .error r := by
  unfold execCsvc
  split
  · rename_i h0
    rw [capLoop_of_le (Nat.le_of_eq h0)]
    exact iff_of_false nofun nofun
  · split <;> simp [*]

/-- CSVC is refused exactly at the first forbidden burst of R190. -/
theorem exec_csvc_refused_iff {b : Nat} {s : State} {r : Refusal} :
    exec (.csvc b) s = .refused r ↔
      FirstRefusal s.cfg .cap (capBurst s (min s.regs.capRemaining.toNat b)) r := by
  rw [capBurst_eq]
  exact execCsvc_refused_iff.trans (capLoop_eq_error_iff s.mem s.sourceAnswers [])

/-- Settles O29: CSVC is refused exactly at the first burst that has a refusal, and a capture burst has one
exactly when it is forbidden, never for read side effects. -/
theorem forbiddenCaptureBurstIsRefused : Obligations.ForbiddenCaptureBurstIsRefused := by
  refine fun b s => ⟨fun j cursor n hj hbefore => ?_, fun r hr => ?_⟩
  · have refused {r} (hr : burstRefusal s.cfg .cap cursor n = some r) : exec (.csvc b) s = .refused r :=
      exec_csvc_refused_iff.mpr ⟨j, cursor, n, hj, hr, fun i hi c m hb =>
        burstRefusal_cap_eq_none_iff.mpr (hbefore i hi c m hb)⟩
    exact ⟨fun ht => refused (burstRefusal_of_crossesTop ht),
      fun ht hw => refused (burstRefusal_of_coversWindow ht hw)⟩
  · obtain ⟨j, cursor, n, hj, hq, _⟩ := exec_csvc_refused_iff.mp hr
    refine ⟨?_, j, cursor, n, hj, by_contra fun hf => ?_⟩
    · rintro rfl
      exact burstRefusal_cap_ne_readsSideEffects hq
    · cases (burstRefusal_cap_eq_none_iff.mpr hf).symm.trans hq

end Sys2Proof.Machine
end

/-! The family of spec/30_encoding.md, part 1: descriptors and the operations they spell. -/

section
namespace Sys2Proof

/-- An exact row is tried first: the index of a slot reads that slot (30_encoding.md R94). -/
theorem Instr.readAt_index (r : Slot) : Instr.readAt r.index = .readSlot r := by
  rw [readAt, Slot.ofIndex_index]

theorem Instr.readAt_of_outOfRange {index : Nat} (h : outOfRange index = true) :
    Instr.readAt index = .rdOutOfRange index := by
  rw [readAt, (Slot.ofIndex_eq_none_iff index).mpr (of_decide_eq_true h)]

theorem Instr.writeAt_index (r : Slot) (v : Word) : Instr.writeAt r.index v = .writeSlot r v := by
  rw [writeAt, Slot.ofIndex_index]

theorem Instr.writeAt_of_outOfRange {index : Nat} (h : outOfRange index = true) (v : Word) :
    Instr.writeAt index v = .wrOutOfRange index v := by
  rw [writeAt, (Slot.ofIndex_eq_none_iff index).mpr (of_decide_eq_true h)]

/-- An index is that of a slot or out of range (20_memory.md R61). -/
theorem index_cases (index : Nat) : (∃ r : Slot, index = r.index) ∨ outOfRange index = true := by
  cases h : Slot.ofIndex index with
  | some r => exact .inl ⟨r, (Slot.index_of_ofIndex h).symm⟩
  | none => exact .inr (decide_eq_true ((Slot.ofIndex_eq_none_iff index).mp h))

theorem Instr.wf_readAt (index : Nat) : (Instr.readAt index).wf = true := by
  rcases index_cases index with ⟨r, rfl⟩ | h
  · rw [readAt_index]
    cases r <;> rfl
  · rw [readAt_of_outOfRange h]
    exact h

theorem Instr.wf_writeAt (index : Nat) (v : Word) : (Instr.writeAt index v).wf = true := by
  rcases index_cases index with ⟨r, rfl⟩ | h
  · rw [writeAt_index]
    cases r <;> rfl
  · rw [writeAt_of_outOfRange h]
    exact h

/-- The descriptor of a read of an index has that index as its `arg`, whichever row the read is. -/
theorem encode_readAt (index : Nat) : encode (.readAt index) = ⟨0, index, []⟩ := by
  rcases index_cases index with ⟨r, rfl⟩ | h
  · rw [Instr.readAt_index]
    cases r <;> rfl
  · rw [Instr.readAt_of_outOfRange h, encode]

/-- The descriptor of a write of an index has that index as its `arg`, whichever row the write is. -/
theorem encode_writeAt (index : Nat) (v : Word) : encode (.writeAt index v) = ⟨1, index, [v]⟩ := by
  rcases index_cases index with ⟨r, rfl⟩ | h
  · rw [Instr.writeAt_index]
    cases r <;> rfl
  · rw [Instr.writeAt_of_outOfRange h, encode]

/-- Decoding undoes encoding: the out-of-range rows are reached because no exact row has such an index, and every
other row has its kind, its index and its payload written out. -/
theorem decode_encode {i : Instr} (h : i.wf = true) : decode (encode i) = .ok i := by
  cases i with
  | rdOutOfRange index => exact congrArg Except.ok (Instr.readAt_of_outOfRange h)
  | wrOutOfRange index v => exact congrArg Except.ok (Instr.writeAt_of_outOfRange h v)
  | _ => rfl

/-- Settles O2: decoding undoes encoding, and a descriptor whose `arg` has 32 bits is the one its `H` gives. -/
theorem decodeOfEncodeIsTheOperation : Obligations.DecodeOfEncodeIsTheOperation := by
  refine fun i h => ⟨decode_encode h, fun ha => ?_⟩
  rw [Descriptor.ofH_h ha]
  exact decode_encode h

/-- Settles O3: each of the six shapes that decode is the encoding of what it spells, but for an `arg` that kinds 4
and 5 do not read (D14). -/
theorem encodeOfDecodeIsTheDescriptor : Obligations.EncodeOfDecodeIsTheDescriptor := by
  intro d i h
  rcases decode_ok_cases h with ⟨a, rfl, rfl⟩ | ⟨a, v, rfl, rfl⟩ | ⟨a, rfl, rfl⟩ | ⟨a, rfl, rfl⟩ |
    ⟨a, rfl, rfl⟩ | ⟨a, w, rfl, rfl⟩
  · rw [encode_readAt]
    exact ⟨Instr.wf_readAt a, rfl, rfl, fun _ => rfl⟩
  · rw [encode_writeAt]
    exact ⟨Instr.wf_writeAt a v, rfl, rfl, fun _ => rfl⟩
  · exact ⟨rfl, rfl, rfl, fun _ => rfl⟩
  · exact ⟨rfl, rfl, rfl, fun _ => rfl⟩
  · exact ⟨rfl, rfl, rfl, fun hk => absurd hk (by simp)⟩
  · exact ⟨rfl, rfl, rfl, fun hk => absurd hk (by simp)⟩

/-- Settles O1: each word is its kind, its index and its payload, and decodes by evaluation. -/
theorem tableWordsDecodeToTheirOperation : Obligations.TableWordsDecodeToTheirOperation :=
  ⟨rfl, rfl, rfl, rfl, rfl, rfl, rfl, rfl, rfl, rfl, rfl, rfl, rfl⟩

/-- Settles O5: kinds 6 and 7 fall through every assigned kind, and a 35-bit `H` has the kind it was packed with
(D27). -/
theorem unassignedKindsAreRejected : Obligations.UnassignedKindsAreRejected := by
  refine ⟨fun _ _ => ⟨rfl, rfl⟩, fun arg p => ?_⟩
  rw [Descriptor.ofH_header, Descriptor.ofH_header]
  exact ⟨rfl, rfl⟩

end Sys2Proof
end

/-! The family of spec/30_encoding.md, part 2: the opcode table, row by row (R94, R108). -/

section
namespace Sys2Proof

/-- If two rows are tried together, both exact or both last, they differ in a bit that both compare. -/
abbrev ApartIfTriedTogether (q r : Row) : Prop :=
  q.last = r.last → q.pattern &&& r.mask ≠ r.pattern &&& q.mask

theorem apartIfTriedTogether_symm : Std.Symm ApartIfTriedTogether :=
  ⟨fun _ _ h hl he => h hl.symm he.symm⟩

theorem opcodeTable_pairwise_apart : opcodeTable.Pairwise ApartIfTriedTogether := by
  decide

/-- Every row compares all the bits of the kind, and its kind is assigned (30_encoding.md R104). -/
theorem opcodeTable_kind : ∀ r ∈ opcodeTable,
    r.mask.extractLsb' 32 3 = 7 ∧ (r.pattern.extractLsb' 32 3).toNat < 6 := by
  decide

/-- Every assigned kind has a row that compares the kind only. -/
theorem exists_kindRow_mem : ∀ k : BitVec 3, k.toNat < 6 →
    ∃ r ∈ opcodeTable, r = kindRow r.mnemonic (header k 0#32) r.last := by
  decide

theorem Row.fits_iff {r : Row} {h : BitVec 35} : r.fits h = true ↔ h &&& r.mask = r.pattern := beq_iff_eq

/-- Rows that a header fits both of agree in every bit that both compare. -/
theorem Row.pattern_and_mask_of_fits {q r : Row} {h : BitVec 35} (hq : q.fits h = true)
    (hr : r.fits h = true) : q.pattern &&& r.mask = r.pattern &&& q.mask := by
  rw [← fits_iff.mp hq, ← fits_iff.mp hr, BitVec.and_assoc, BitVec.and_assoc, BitVec.and_comm q.mask]

/-- No header fits two rows that are tried together. -/
theorem last_ne_of_fits {q r : Row} {h : BitVec 35} (hq : q ∈ opcodeTable) (hr : r ∈ opcodeTable)
    (hqf : q.fits h = true) (hrf : r.fits h = true) (hne : q ≠ r) : q.last ≠ r.last := fun hl =>
  have := apartIfTriedTogether_symm
  opcodeTable_pairwise_apart.forall hq hr hne hl (Row.pattern_and_mask_of_fits hqf hrf)

/-- A header that fits a row has its kind, an assigned one: the row compares all the kind's bits. -/
theorem kind_lt_of_fits {r : Row} {h : BitVec 35} (hr : r ∈ opcodeTable) (hf : r.fits h = true) :
    (h.extractLsb' 32 3).toNat < 6 := by
  obtain ⟨hm, hp⟩ := opcodeTable_kind r hr
  have hk : (h &&& r.mask).extractLsb' 32 3 = h.extractLsb' 32 3 := by
    rw [BitVec.extractLsb'_and, hm]
    exact BitVec.and_allOnes
  rwa [← Row.fits_iff.mp hf, hk] at hp

theorem exists_fits_of_kind_lt {h : BitVec 35} (hk : (h.extractLsb' 32 3).toNat < 6) :
    ∃ r ∈ opcodeTable, r.fits h = true := by
  obtain ⟨r, hr, heq⟩ := exists_kindRow_mem _ hk
  refine ⟨r, hr, ?_⟩
  rw [heq, ← header_eta h, header_kind, kindRow_fits]
  exact decide_eq_true rfl

/-- The row looked up is a row of the table that fits, and a last one only if no exact row fits. -/
theorem lookupRow_eq_some {h : BitVec 35} {r : Row} (hr : lookupRow h = some r) :
    r ∈ opcodeTable ∧ r.fits h = true ∧
      (r.last = true → ∀ q ∈ opcodeTable, q.fits h = true → q.last = true) := by
  rw [lookupRow, Option.or_eq_some_iff] at hr
  rcases hr with hfirst | ⟨hnone, hlast⟩
  · obtain ⟨hmem, hnot⟩ := List.mem_filter.mp (List.mem_of_find?_eq_some hfirst)
    exact ⟨hmem, List.find?_some (p := fun r : Row => r.fits h) hfirst, fun hl => by simp [hl] at hnot⟩
  · obtain ⟨hmem, _⟩ := List.mem_filter.mp (List.mem_of_find?_eq_some hlast)
    refine ⟨hmem, List.find?_some (p := fun r : Row => r.fits h) hlast, fun _ q hq hf => ?_⟩
    by_contra hl
    exact List.find?_eq_none.mp hnone q (List.mem_filter.mpr ⟨hq, by simp [hl]⟩) hf

/-- No row is looked up exactly when none fits. -/
theorem lookupRow_eq_none_iff {h : BitVec 35} :
    lookupRow h = none ↔ ∀ r ∈ opcodeTable, ¬ r.fits h = true := by
  rw [lookupRow, Option.or_eq_none_iff, List.find?_eq_none, List.find?_eq_none]
  simp only [List.mem_filter]
  refine ⟨fun ⟨hfirst, hlast⟩ r hr => ?_, fun hall => ⟨fun r hr => hall r hr.1, fun r hr => hall r hr.1⟩⟩
  cases hl : r.last with
  | false => exact hfirst r ⟨hr, by simp [hl]⟩
  | true => exact hlast r ⟨hr, hl⟩

/-- The row of an operation's encoding is the operation's own, for every operation (30_encoding.md R94). -/
theorem lookupRow_encode : ∀ i : Instr, Laws.RowMatch.Statement i
  | .rdCodecCtrl => Laws.RowMatch.rdCodecCtrl
  | .rdCodecAddr => Laws.RowMatch.rdCodecAddr
  | .rdCodecDataOut => Laws.RowMatch.rdCodecDataOut
  | .rdCodecDataIn => Laws.RowMatch.rdCodecDataIn
  | .rdPlayCtrl => Laws.RowMatch.rdPlayCtrl
  | .rdPlayAddr => Laws.RowMatch.rdPlayAddr
  | .rdPlayRemaining => Laws.RowMatch.rdPlayRemaining
  | .rdCapCtrl => Laws.RowMatch.rdCapCtrl
  | .rdCapAddr => Laws.RowMatch.rdCapAddr
  | .rdCapRemaining => Laws.RowMatch.rdCapRemaining
  | .rdReserved => Laws.RowMatch.rdReserved
  | .rdOutOfRange index => Laws.RowMatch.rdOutOfRange index
  | .wrCodecCtrl v => Laws.RowMatch.wrCodecCtrl v
  | .wrCodecAddr v => Laws.RowMatch.wrCodecAddr v
  | .wrCodecDataOut v => Laws.RowMatch.wrCodecDataOut v
  | .wrCodecDataIn v => Laws.RowMatch.wrCodecDataIn v
  | .wrPlayCtrl v => Laws.RowMatch.wrPlayCtrl v
  | .wrPlayAddr v => Laws.RowMatch.wrPlayAddr v
  | .wrPlayRemaining v => Laws.RowMatch.wrPlayRemaining v
  | .wrCapCtrl v => Laws.RowMatch.wrCapCtrl v
  | .wrCapAddr v => Laws.RowMatch.wrCapAddr v
  | .wrCapRemaining v => Laws.RowMatch.wrCapRemaining v
  | .wrReserved v => Laws.RowMatch.wrReserved v
  | .wrOutOfRange index v => Laws.RowMatch.wrOutOfRange index v
  | .psvc budget => Laws.RowMatch.psvc budget
  | .csvc budget => Laws.RowMatch.csvc budget
  | .rst => Laws.RowMatch.rst
  | .rstr w => Laws.RowMatch.rstr w

/-- An `H` that holds the encoding of an operation has the row of that operation. -/
theorem lookupRow_mnemonic_of_encode {h : BitVec 35} {p : List Word} {i : Instr} (hwf : i.wf = true)
    (henc : encode i = .ofH h p) : (lookupRow h).map (fun r => r.mnemonic) = some i.mnemonic := by
  have hrow := lookupRow_encode i hwf
  rw [henc, Descriptor.h_ofH] at hrow
  exact hrow (Machine.ofH_arg_lt h p)

/-- The operation a descriptor decodes to has the mnemonic of its row: with kinds 0 to 3 the descriptor is the
operation's encoding, and the rows of RST and RSTR compare the kind only. -/
theorem lookupRow_mnemonic_of_decode {h : BitVec 35} {p : List Word} {i : Instr}
    (hi : decode (.ofH h p) = .ok i) : (lookupRow h).map (fun r => r.mnemonic) = some i.mnemonic := by
  rcases decode_ok_cases hi with ⟨a, hd, rfl⟩ | ⟨a, v, hd, rfl⟩ | ⟨a, hd, rfl⟩ | ⟨a, hd, rfl⟩ |
    ⟨a, hd, rfl⟩ | ⟨a, w, hd, rfl⟩
  · exact lookupRow_mnemonic_of_encode (Instr.wf_readAt a) ((encode_readAt a).trans hd.symm)
  · exact lookupRow_mnemonic_of_encode (Instr.wf_writeAt a v) ((encode_writeAt a v).trans hd.symm)
  · exact lookupRow_mnemonic_of_encode rfl hd.symm
  · exact lookupRow_mnemonic_of_encode rfl hd.symm
  · rw [← header_eta h, show h.extractLsb' 32 3 = 4 from congrArg Descriptor.kind hd, lookupRow_rst]
    rfl
  · rw [← header_eta h, show h.extractLsb' 32 3 = 5 from congrArg Descriptor.kind hd, lookupRow_rstr]
    rfl

/-- Settles O4: some row fits every assigned kind and rows tried together exclude each other, so the row looked up is
the only one but for a last row under an exact one. -/
theorem decoderAgreesWithTheOpcodeTable : Obligations.DecoderAgreesWithTheOpcodeTable := by
  refine ⟨fun h hk => ?_, fun h hk => ?_, fun h p i => lookupRow_mnemonic_of_decode⟩
  · obtain ⟨r, hr⟩ : ∃ r, lookupRow h = some r := by
      rw [← Option.ne_none_iff_exists', ne_eq, lookupRow_eq_none_iff]
      obtain ⟨r, hmem, hf⟩ := exists_fits_of_kind_lt hk
      exact fun hall => hall r hmem hf
    obtain ⟨hmem, hf, hlast⟩ := lookupRow_eq_some hr
    refine ⟨r, hmem, hr, hf, fun q hq hqf hne => ?_⟩
    have hdiff := last_ne_of_fits hq hmem hqf hf hne
    cases hl : r.last with
    | true => exact absurd ((hlast hl q hq hqf).trans hl.symm) hdiff
    | false => exact ⟨Bool.eq_true_of_not_eq_false (hl ▸ hdiff), rfl⟩
  · exact lookupRow_eq_none_iff.mpr fun r hr hf => absurd (kind_lt_of_fits hr hf) (Nat.not_lt.mpr hk)

end Sys2Proof
end

/-! The family of spec/30_encoding.md, part 3: the budget (R98), the sequences that arm a channel (R107) and the
inputs a step refuses (R104). -/

section
namespace Sys2Proof.Machine

/-- A service that wants nothing answers the state it started in (42_playback_dma.md R171, 43_capture_dma.md R191). -/
theorem execPsvc_of_want_eq_zero {b : Nat} {s : State} (h : want .play b s = 0) : execPsvc b s = .next s :=
  if_pos h

theorem execCsvc_of_want_eq_zero {b : Nat} {s : State} (h : want .cap b s = 0) : execCsvc b s = .next s :=
  if_pos h

/-- Two budgets under which a service wants the same do the same (30_encoding.md R98). -/
theorem execPsvc_congr_want {b c : Nat} {s : State} (h : want .play b s = want .play c s) :
    execPsvc b s = execPsvc c s := by
  simp only [execPsvc, h]

theorem execCsvc_congr_want {b c : Nat} {s : State} (h : want .cap b s = want .cap c s) :
    execCsvc b s = execCsvc c s := by
  simp only [execCsvc, h]

/-- A budget of at least the counter wants the whole counter. -/
theorem want_of_remaining_le {ch : Channel} {b : Nat} {s : State} (h : (s.regs.get ch.remaining).toNat ≤ b) :
    want ch b s = (s.regs.get ch.remaining).toNat := Nat.min_eq_left h

/-- Settles O20: the budget stands in a service in `want` alone. -/
theorem budgetEntersOnlyThroughWant : Obligations.BudgetEntersOnlyThroughWant := fun _ _ =>
  ⟨execPsvc_of_want_eq_zero, execCsvc_of_want_eq_zero,
    fun h => execPsvc_congr_want ((want_of_remaining_le h).trans (want_of_remaining_le le_rfl).symm),
    fun h => execCsvc_congr_want ((want_of_remaining_le h).trans (want_of_remaining_le le_rfl).symm)⟩

/-- A channel is armed when its enable bit is 1 and its counter is not 0 (41_register_write.md R154). -/
theorem channelState_eq_armed_iff {ch : Channel} {s : State} :
    channelState ch s = .armed ↔ (s.regs.get ch.ctrl).getLsbD 0 = true ∧ s.regs.get ch.remaining ≠ 0 := by
  unfold channelState
  split
  · rename_i he
    rw [and_iff_right he]
    split
    · exact iff_of_false nofun (not_not_intro ‹_›)
    · exact iff_of_true rfl ‹_›
  · split <;> exact iff_of_false nofun fun h => absurd h.1 ‹_›

/-- Re-evaluation makes each stream flag its channel's enable bit (41_register_write.md R153). -/
theorem streamActive_reevaluate (ch : Channel) (s : State) :
    streamActive ch (reevaluate s) = enabled (s.regs.get ch.ctrl) := by
  cases ch <;> rfl

/-- What the three writes that arm a channel leave of `s` (30_encoding.md R107). -/
def armed (ch : Channel) (a n : Word) (s : State) : State :=
  reevaluate (storeReg ch.ctrl 1 (storeReg ch.remaining n (storeReg ch.addr a s)))

theorem runAll_armPlay (a n : Word) (s : State) : runAll (armPlay a n) s = .next (armed .play a n s) := rfl

theorem runAll_armCap (a n : Word) (s : State) : runAll (armCap a n) s = .next (armed .cap a n s) := rfl

section Armed
variable (ch : Channel) (a n : Word) (s : State)

theorem armed_get_ctrl : (armed ch a n s).regs.get ch.ctrl = 1 := RegFile.get_set_self ..

theorem armed_get_remaining : (armed ch a n s).regs.get ch.remaining = n :=
  (RegFile.get_set_ne _ _ (by cases ch <;> decide)).trans (RegFile.get_set_self ..)

theorem armed_get_addr : (armed ch a n s).regs.get ch.addr = a :=
  (RegFile.get_set_ne _ _ (by cases ch <;> decide)).trans <|
    (RegFile.get_set_ne _ _ (by cases ch <;> decide)).trans (RegFile.get_set_self ..)

theorem armed_streamActive : streamActive ch (armed ch a n s) = true :=
  (streamActive_reevaluate ..).trans (congrArg enabled (armed_get_ctrl ch a n s))

theorem armed_trace : (armed ch a n s).trace = s.trace := rfl

theorem channelState_armed (hn : n ≠ 0) : channelState ch (armed ch a n s) = .armed := by
  rw [channelState_eq_armed_iff, armed_get_ctrl, armed_get_remaining]
  exact ⟨by decide, hn⟩

end Armed

/-- Settles O39: both sequences leave what `armed` says of their channel. -/
theorem armSequencesArmTheChannel : Obligations.ArmSequencesArmTheChannel := fun a n s hn =>
  ⟨⟨_, runAll_armPlay a n s, channelState_armed .play a n s hn, armed_streamActive .play a n s,
      armed_get_addr .play a n s, armed_get_remaining .play a n s, armed_trace .play a n s⟩,
    ⟨_, runAll_armCap a n s, channelState_armed .cap a n s hn, armed_streamActive .cap a n s,
      armed_get_addr .cap a n s, armed_get_remaining .cap a n s, armed_trace .cap a n s⟩⟩

/-- A step with a descriptor that spells no operation is refused (30_encoding.md R104). -/
theorem step_badDescriptor {s : State} {d : Descriptor} {rest : List Input} {e : DecodeError}
    (hp : s.pending = .op d :: rest) (hd : decode d = .error e) : step s = .refused (.badDescriptor e) := by
  unfold step
  simp only [hp, hd]

/-- A step with an operation that no agent issues is refused for that reason. -/
theorem step_of_issueRefusal {s : State} {d : Descriptor} {rest : List Input} {i : Instr} {r : Refusal}
    (hp : s.pending = .op d :: rest) (hd : decode d = .ok i) (hr : issueRefusal d i s = some r) :
    step s = .refused r := by
  unfold step
  simp only [hp, hd, hr]

/-- An index or a budget outside its domain is refused whatever the operation (00_scope.md R12, R13). -/
theorem issueRefusal_of_not_argFits {d : Descriptor} {i : Instr} {s : State} (h : ¬ d.argFits s.cfg = true) :
    issueRefusal d i s = some .argOutsideDomain := if_pos (Bool.eq_false_of_not_eq_true h)

/-- A service of an inactive channel is refused (42_playback_dma.md R178, 43_capture_dma.md R198). -/
theorem issueRefusal_of_inactive {d : Descriptor} {i : Instr} {s : State} {ch : Channel}
    (hf : d.argFits s.cfg = true) (hi : servicedChannel i = some ch) (hw : s.cfg.serviceWhenInactive = false)
    (ha : streamActive ch s = false) : issueRefusal d i s = some (.serviceWhileInactive ch) := by
  simp [issueRefusal, hf, hi, hw, ha]

/-- Only the descriptors of the service kinds decode to a service (30_encoding.md R93). -/
theorem kind_of_decode_service {d : Descriptor} {i : Instr} {ch : Channel} (hd : decode d = .ok i)
    (hi : servicedChannel i = some ch) : d.kind = 2 ∨ d.kind = 3 := by
  rcases decode_ok_cases hd with ⟨a, rfl, rfl⟩ | ⟨a, v, rfl, rfl⟩ | ⟨a, rfl, rfl⟩ | ⟨a, rfl, rfl⟩ |
    ⟨a, rfl, rfl⟩ | ⟨a, w, rfl, rfl⟩
  · cases (servicedChannel_readAt a).symm.trans hi
  · cases (servicedChannel_writeAt a v).symm.trans hi
  · exact .inl rfl
  · exact .inr rfl
  · cases hi
  · cases hi

/-- Settles O53: each of the three premises is the condition of one refusal, and a descriptor that decodes to a
service is held to BUDGET_BITS only. -/
theorem stepRefusesWhatNoAgentIssues : Obligations.StepRefusesWhatNoAgentIssues := by
  refine fun s d rest hp => ⟨fun e => step_badDescriptor hp, fun i hd hout => ?_,
    fun i ch hd hb hi hw ha => ?_⟩
  · refine step_of_issueRefusal hp hd (issueRefusal_of_not_argFits fun hf => ?_)
    obtain ⟨hindex, hbudget⟩ := argFits_iff.mp hf
    rcases hout with ⟨hk, hle⟩ | ⟨hk, hle⟩
    · exact absurd (hindex hk) (Nat.not_lt.mpr hle)
    · exact absurd (hbudget hk) (Nat.not_lt.mpr hle)
  · have hk := kind_of_decode_service hd hi
    have hf : d.argFits s.cfg = true :=
      argFits_iff.mpr ⟨by rcases hk with hk | hk <;> simp [hk], fun _ => hb⟩
    exact step_of_issueRefusal hp hd (issueRefusal_of_inactive hf hi hw ha)

end Sys2Proof.Machine
end

/-! The family of spec/40_register_read.md: accesses at the reserved slot and out of range (R131, R132, R148, R152),
and the contract of REG_READ (R120). -/

section
namespace Sys2Proof.Machine

/-- A read out of range answers 0 and one diagnostic (40_register_read.md R132). -/
theorem exec_rdOutOfRange (index : Nat) (s : State) : exec (.rdOutOfRange index) s =
    .next { s with trace := s.trace ++ [.readData 0, .diag .unknownRead index] } :=
  congrArg Host.Outcome.next (emit_emit [.readData 0] s [.diag .unknownRead index])

/-- A write out of range is dropped with one diagnostic (41_register_write.md R152). -/
theorem exec_wrOutOfRange (index : Nat) (v : Word) (s : State) : exec (.wrOutOfRange index v) s =
    .next { s with trace := s.trace ++ [.diag .unknownWrite index] } := rfl

/-- RD #7 answers 0, then the diagnostic DIAG_ON_RESERVED asks for (40_register_read.md R131). -/
theorem exec_rdReserved (s : State) : exec .rdReserved s =
    .next { s with
            trace := s.trace ++ .readData 0 ::
              (if s.cfg.diagOnReserved then [.diag .unknownRead 7] else []) } :=
  congrArg Host.Outcome.next
    ((reservedDiag_eq_emit .unknownRead (returnData 0 s)).trans (emit_emit [.readData 0] s _))

/-- WR #7 is dropped, with the diagnostic DIAG_ON_RESERVED asks for (41_register_write.md R148). -/
theorem exec_wrReserved (v : Word) (s : State) : exec (.wrReserved v) s =
    .next { s with
            trace := s.trace ++ (if s.cfg.diagOnReserved then [.diag .unknownWrite 7] else []) } :=
  congrArg Host.Outcome.next (reservedDiag_eq_emit .unknownWrite s)

/-- A diagnostic, reported or not, is neither a pulse nor an exchange with the sink or the source. -/
theorem diag_no_pulse_no_exchange (b : Bool) (c : DiagCode) (index : Nat) :
    pulses (if b then [.diag c index] else []) = [] ∧
      (if b then [Event.diag c index] else []).filterMap Event.offered = [] ∧
      (if b then [Event.diag c index] else []).filterMap Event.pulled = [] := by
  cases b <;> exact ⟨rfl, rfl, rfl⟩

/-- Settles O9: an index names a register, the reserved slot, or nothing, and each of the three reads appends the
returned word and at most a diagnostic. -/
theorem regReadContract : Obligations.RegReadContract := by
  intro index s
  rcases index_cases index with ⟨r, rfl⟩ | hout
  · rw [Instr.readAt_index, Slot.ofIndex_index]
    have hin : ¬ 11 ≤ r.index := Nat.not_le.mpr r.index_lt
    by_cases hr : r = .reserved
    · subst hr
      obtain ⟨hpulse, hoffer, hpull⟩ := diag_no_pulse_no_exchange s.cfg.diagOnReserved .unknownRead 7
      exact ⟨0, _, exec_rdReserved s, hpulse, hoffer, hpull,
        fun _ hq hne => absurd (Option.some.inj hq).symm hne, fun h => absurd h hin⟩
    · refine ⟨s.regs.get r, [], exec_readSlot hr s, rfl, rfl, rfl, fun q hq _ => ?_, fun h => absurd h hin⟩
      cases hq
      exact ⟨rfl, rfl⟩
  · rw [Instr.readAt_of_outOfRange hout,
      (Slot.ofIndex_eq_none_iff index).mpr (of_decide_eq_true hout)]
    obtain ⟨hpulse, hoffer, hpull⟩ := diag_no_pulse_no_exchange true .unknownRead index
    exact ⟨0, _, exec_rdOutOfRange index s, hpulse, hoffer, hpull, nofun, fun _ => ⟨rfl, rfl⟩⟩

/-- Settles O8: both out-of-range rows are well formed at such an index, so their descriptors decode to them. -/
theorem outOfRangeAccessesOnlyEmitADiagnostic : Obligations.OutOfRangeAccessesOnlyEmitADiagnostic :=
  ⟨fun index v h => ⟨decode_encode (i := .rdOutOfRange index) (decide_eq_true h),
      decode_encode (i := .wrOutOfRange index v) (decide_eq_true h)⟩,
    fun index v s => ⟨exec_rdOutOfRange index s, exec_wrOutOfRange index v s⟩⟩

/-- Settles O14: the two words decode by evaluation, and neither operation's answer mentions word 7 (D1, D2). -/
theorem reservedSlotReadsZeroAndIgnoresWrites : Obligations.ReservedSlotReadsZeroAndIgnoresWrites :=
  ⟨rfl, fun _ => rfl, fun v s => ⟨exec_rdReserved s, exec_wrReserved v s⟩⟩

end Sys2Proof.Machine
end

/-! The family of spec/41_register_write.md: what a register write leaves of a state (R140 to R151, R156), codec
commands one after the other (R155) and the transition that pulses completion (R154). -/

section
namespace Sys2Proof.Machine

@[simp] theorem sunk_append (tr es : List Event) : sunk (tr ++ es) = sunk tr ++ sunk es := List.flatMap_append

@[simp] theorem captured_append (tr es : List Event) : captured (tr ++ es) = captured tr ++ captured es :=
  List.flatMap_append

section RegisterWrite
variable (r : Slot) (v : Word) (s : State)

/-- The word a slot holds after a write of `v` to it (41_register_write.md R156). -/
def storedWord : Word :=
  match r with
  | .codecCtrl => codecStored v
  | .reserved => s.regs.get .reserved
  | _ => v

/-- What a write of `v` to a slot emits: a codec line (41_register_write.md R141), the diagnostic of the reserved
slot (R148), or nothing. -/
def writeEvents : List Event :=
  match r with
  | .codecCtrl =>
    if v.getLsbD 0 then (if v.getLsbD 1 then [.pulse .codecRequest] else [.pulse .codecReply]) else []
  | .reserved => if s.cfg.diagOnReserved then [.diag .unknownWrite 7] else []
  | _ => []

/-- What a write of `v` to a slot leaves of `s` (41_register_write.md R140). -/
def written : State :=
  if r = .playCtrl ∨ r = .capCtrl then reevaluate (emit (writeEvents r v s) (storeReg r (storedWord r v s) s))
  else emit (writeEvents r v s) (storeReg r (storedWord r v s) s)

@[simp] theorem written_regs : (written r v s).regs = s.regs.set r (storedWord r v s) := by
  unfold written
  split <;> rfl

@[simp] theorem written_trace : (written r v s).trace = s.trace ++ writeEvents r v s := by
  unfold written
  split <;> rfl

@[simp] theorem written_mem : (written r v s).mem = s.mem := by
  unfold written
  split <;> rfl

@[simp] theorem written_sinkAnswers : (written r v s).sinkAnswers = s.sinkAnswers := by
  unfold written
  split <;> rfl

@[simp] theorem written_sourceAnswers : (written r v s).sourceAnswers = s.sourceAnswers := by
  unfold written
  split <;> rfl

/-- A register write exchanges nothing with the sink or the source (41_register_write.md R140). -/
theorem writeEvents_no_exchange : sunk (writeEvents r v s) = [] ∧ captured (writeEvents r v s) = [] := by
  cases r with
  | codecCtrl =>
    simp only [writeEvents]
    cases v.getLsbD 0 <;> cases v.getLsbD 1 <;> exact ⟨rfl, rfl⟩
  | reserved =>
    simp only [writeEvents]
    cases s.cfg.diagOnReserved <;> exact ⟨rfl, rfl⟩
  | _ => exact ⟨rfl, rfl⟩

/-- WR CODEC_CTRL pulses by the written value and stores it with the request bit cleared (41_register_write.md
R141). -/
theorem exec_wrCodecCtrl : exec (.wrCodecCtrl v) s = .next (written .codecCtrl v s) := by
  have hpulse : codecPulse v s = emit (writeEvents .codecCtrl v s) s := by
    rw [codecPulse_eq_emit]
    unfold rqen dir writeEvents
    cases v.getLsbD 1 <;> rfl
  exact congrArg (fun t => Host.Outcome.next (storeReg .codecCtrl (codecStored v) t)) hpulse

/-- A slot without a control bit, the reserved one apart, takes the value verbatim (41_register_write.md R142 to
R144, R146, R147, R150, R151). -/
theorem exec_writeSlot_verbatim {r : Slot} (hr : r ∉ [Slot.codecCtrl, .playCtrl, .reserved, .capCtrl]) :
    exec (.writeSlot r v) s = .next (storeReg r v s) := by
  cases r with
  | codecCtrl | playCtrl | reserved | capCtrl => exact absurd (by decide) hr
  | _ => rfl

/-- A channel's CTRL takes the value verbatim, and both stream flags are evaluated again (41_register_write.md
R145, R149, R153). -/
theorem exec_writeSlot_ctrl (ch : Channel) :
    exec (.writeSlot ch.ctrl v) s = .next (reevaluate (storeReg ch.ctrl v s)) := by
  cases ch <;> rfl

/-- Every write of a slot answers what `written` says. -/
theorem exec_writeSlot : exec (.writeSlot r v) s = .next (written r v s) := by
  cases r with
  | codecCtrl => exact exec_wrCodecCtrl v s
  | reserved =>
    refine (exec_wrReserved v s).trans (congrArg Host.Outcome.next ?_)
    exact congrArg (emit _) (storeReg_get_self s).symm
  | playCtrl | capCtrl => exact congrArg (fun t => Host.Outcome.next (reevaluate t)) (emit_nil _).symm
  | _ => exact (exec_writeSlot_verbatim v s (by decide)).trans (congrArg Host.Outcome.next (emit_nil _).symm)

end RegisterWrite

/-- Settles O15: a write of a slot sets that slot's word and emits no exchange, and a write out of range only
emits its diagnostic. -/
theorem regWriteTouchesOnlyItsWord : Obligations.RegWriteTouchesOnlyItsWord := by
  intro index v s
  rcases index_cases index with ⟨r, rfl⟩ | hout
  · rw [Instr.writeAt_index]
    obtain ⟨hsunk, hcaptured⟩ := writeEvents_no_exchange r v s
    refine ⟨written r v s, exec_writeSlot r v s, fun q hq => ?_, ?_⟩
    · rw [written_regs, RegFile.get_set_ne _ _ fun h => hq (congrArg Slot.index h)]
    · simp [hsunk, hcaptured]
  · rw [Instr.writeAt_of_outOfRange hout]
    refine ⟨_, exec_wrOutOfRange index v s, fun _ _ => rfl, fun _ => rfl, rfl, rfl, ?_, ?_⟩
    · exact (sunk_append ..).trans (List.append_nil _)
    · exact (captured_append ..).trans (List.append_nil _)

/-- The word a named slot holds after a write, by its index (41_register_write.md R156). -/
theorem storedWord_by_index {r : Slot} (hr : r ≠ .reserved) (v : Word) (s : State) :
    storedWord r v s =
      if r.index = 0 then v &&& 0xFFFFFFFE#32 else if r.index = 7 ∨ 11 ≤ r.index then 0 else v := by
  cases r with
  | reserved => exact absurd rfl hr
  | _ => rfl

/-- Settles O16: a named slot reads the word the write stored in it; the reserved slot and an index out of range
read 0 in every state (D1). -/
theorem writeThenReadReturnsTheStoredValue : Obligations.WriteThenReadReturnsTheStoredValue := by
  intro index v s
  rcases index_cases index with ⟨r, rfl⟩ | hout
  · rw [Instr.writeAt_index, Instr.readAt_index]
    by_cases hr : r = .reserved
    · subst hr
      exact ⟨_, _, _, exec_writeSlot _ v s, exec_rdReserved _, rfl⟩
    · refine ⟨_, _, [], exec_writeSlot r v s, exec_readSlot hr _, ?_⟩
      rw [written_regs, RegFile.get_set_self, storedWord_by_index hr]
  · rw [Instr.writeAt_of_outOfRange hout, Instr.readAt_of_outOfRange hout]
    have hge : 11 ≤ index := of_decide_eq_true hout
    refine ⟨_, _, [.diag .unknownRead index], exec_wrOutOfRange index v s, exec_rdOutOfRange index _, ?_⟩
    rw [if_neg (by omega), if_pos (.inr hge)]

theorem runAll_cons_of_next {i : Instr} {s t : State} (h : exec i s = .next t) (is : List Instr) :
    runAll (i :: is) s = runAll is t := by
  rw [runAll, h]

/-- A command, a write of CODEC_CTRL with the request bit set, pulses the line of its direction bit
(41_register_write.md R141). -/
theorem pulses_writeEvents_command {v : Word} (hv : v.getLsbD 0 = true) (s : State) :
    pulses (writeEvents .codecCtrl v s) = [if v.getLsbD 1 then .codecRequest else .codecReply] := by
  rw [writeEvents, if_pos hv]
  split <;> rfl

/-- Settles O17, by induction on the number of commands: each appends its one pulse to whatever stood before. -/
theorem everyCodecCommandPulses : Obligations.EveryCodecCommandPulses := by
  intro n v s hv
  induction n generalizing s with
  | zero => exact ⟨s, rfl, (List.append_nil _).symm⟩
  | succ n ih =>
    obtain ⟨t, hrun, hpulses⟩ := ih (written .codecCtrl v s)
    refine ⟨t, (runAll_cons_of_next (exec_wrCodecCtrl v s) _).trans hrun, ?_⟩
    rw [hpulses, written_trace, pulses_append, pulses_writeEvents_command hv, List.append_assoc,
      List.replicate_succ, List.singleton_append]

/-- A channel is enabled-drained when its enable bit is 1 and its counter is 0 (41_register_write.md R154). -/
theorem channelState_eq_enabledDrained_iff {ch : Channel} {s : State} :
    channelState ch s = .enabledDrained ↔
      (s.regs.get ch.ctrl).getLsbD 0 = true ∧ s.regs.get ch.remaining = 0 := by
  unfold channelState
  split
  · rename_i he
    rw [and_iff_right he]
    split
    · exact iff_of_true rfl ‹_›
    · exact iff_of_false nofun ‹_›
  · split <;> exact iff_of_false nofun fun h => absurd h.1 ‹_›

/-- A service leaves its channel's enable bit. -/
theorem exec_service_get_ctrl {i : Instr} {ch : Channel} {s t : State} (hi : servicedChannel i = some ch)
    (h : exec i s = .next t) : t.regs.get ch.ctrl = s.regs.get ch.ctrl := by
  rcases exec_service_cases hi h with rfl | ⟨n, es, mem, sink, source, _, _, _, rfl⟩
  · rfl
  · exact serviced_get_of_ne _ _ _ _ _ _ _ (by cases ch <;> decide) (by cases ch <;> decide)

/-- Settles O45: R53 says when a completion line is pulsed, and since a service leaves the enable bit its
condition is that the channel was armed and is enabled-drained. -/
theorem completionIsTheArmedToDrainedTransition : Obligations.CompletionIsTheArmedToDrainedTransition := by
  intro i s t ch h
  rw [completionFiresAtMostOncePerTransfer.1 i s t ch h]
  refine and_congr_right fun hi => ?_
  rw [channelState_eq_armed_iff, channelState_eq_enabledDrained_iff, exec_service_get_ctrl hi h]
  exact ⟨fun ⟨hen, hrem, hdone⟩ => ⟨⟨hen, hrem⟩, hen, hdone⟩, fun ⟨⟨hen, hrem⟩, _, hdone⟩ => ⟨hen, hrem, hdone⟩⟩

/-- Settles O10: the row decodes by evaluation, and `written` at CODEC_CTRL is the state R141 asks for. -/
theorem codecCtrlWritePulsesAndSelfClears : Obligations.CodecCtrlWritePulsesAndSelfClears :=
  ⟨fun _ => rfl, exec_wrCodecCtrl⟩

/-- Settles O11: the three rows decode by evaluation, and their slots hold no control bit. -/
theorem opaqueCodecWritesStoreVerbatim : Obligations.OpaqueCodecWritesStoreVerbatim :=
  ⟨fun _ => ⟨rfl, rfl, rfl⟩, fun v s =>
    ⟨exec_writeSlot_verbatim v s (r := .codecAddr) (by decide),
      exec_writeSlot_verbatim v s (r := .codecDataOut) (by decide),
      exec_writeSlot_verbatim v s (r := .codecDataIn) (by decide)⟩⟩

/-- Settles O12: the two rows decode by evaluation and re-evaluate both flags; where the flags match before, the
other channel's enable bit is its flag (D25). -/
theorem dmaCtrlWritesStoreAndReevaluate : Obligations.DmaCtrlWritesStoreAndReevaluate := by
  refine ⟨fun _ => ⟨rfl, rfl⟩, fun v s => ?_⟩
  have hplay := exec_writeSlot_ctrl v s .play
  have hcap := exec_writeSlot_ctrl v s .cap
  refine ⟨hplay, hcap, fun ⟨hp, hc⟩ => ⟨hplay.trans ?_, hcap.trans ?_⟩⟩
  · rw [hc]
    rfl
  · rw [hp]
    rfl

end Sys2Proof.Machine
end

/-! The family of spec/42_playback_dma.md, part 1: the passes of the chunk loop (R172), and the service that does what
the pseudocode says (R170). -/

section
namespace Sys2Proof.Machine

/-- The passes a playback loop makes from where it stands and what they leave, one constructor for each thing a
pass can do (42_playback_dma.md R172). -/
inductive PlayPasses (cfg : Config) (mem : Memory) (base : Word) (want : Nat) : List Nat → Nat → PlayRun → Prop where
  /-- Nothing more is wanted. -/
  | ended {answers : List Nat} {done : Nat} (hle : want ≤ done) :
      PlayPasses cfg mem base want answers done ⟨done, answers, []⟩
  /-- The sink takes nothing of the offer. -/
  | stopped {answers : List Nat} {done : Nat} (hlt : done < want)
      (h0 : taken (answers.headD 0) (chunkSize cfg want done) = 0) :
      PlayPasses cfg mem base want answers done
        ⟨done, answers.tail, [playOffer cfg mem base want done (answers.headD 0)]⟩
  /-- The sink takes bytes of the offer, and the loop goes on. -/
  | moved {a : Nat} {rest : List Nat} {done : Nat} {run : PlayRun} (hlt : done < want)
      (hpos : 0 < taken a (chunkSize cfg want done))
      (hrest : PlayPasses cfg mem base want rest (done + taken a (chunkSize cfg want done)) run) :
      PlayPasses cfg mem base want (a :: rest) done (run.after (playOffer cfg mem base want done a))

section PlayLoop
variable {cfg : Config} {mem : Memory} {base : Word} {want : Nat}

/-- A playback loop that is not refused makes its passes. -/
theorem playPasses_of_playLoop {answers : List Nat} {done : Nat} {run : PlayRun}
    (h : playLoop cfg mem base want answers done = .ok run) : PlayPasses cfg mem base want answers done run := by
  induction answers generalizing done run with
  | nil =>
    rcases playLoop_ok_cases h with ⟨hle, rfl⟩ | ⟨hlt, _, h0, rfl⟩ | ⟨_, _, _, _, _, _, hc, _⟩
    · exact .ended hle
    · exact .stopped hlt h0
    · cases hc
  | cons a rest ih =>
    rcases playLoop_ok_cases h with ⟨hle, rfl⟩ | ⟨hlt, _, h0, rfl⟩ | ⟨_, _, _, hlt, _, hpos, hc, hl, rfl⟩
    · exact .ended hle
    · exact .stopped hlt h0
    · cases hc
      exact .moved hlt hpos (ih hl)

variable {answers : List Nat} {done : Nat} {run : PlayRun}

/-- Every offer of a playback loop is that of a pass made while bytes are wanted. -/
theorem PlayPasses.offers_mem (h : PlayPasses cfg mem base want answers done run) :
    ∀ e ∈ run.offers, ∃ d a, d < want ∧ e = playOffer cfg mem base want d a := by
  induction h with
  | ended => nofun
  | stopped hlt => exact List.forall_mem_singleton.mpr ⟨_, _, hlt, rfl⟩
  | moved hlt _ _ ih => exact List.forall_mem_cons.mpr ⟨⟨_, _, hlt, rfl⟩, ih⟩

/-- A playback loop makes at most one offer for each byte still wanted (42_playback_dma.md R177). -/
theorem PlayPasses.offers_length_le (h : PlayPasses cfg mem base want answers done run) :
    run.offers.length ≤ want - done := by
  induction h with
  | ended => exact Nat.zero_le _
  | stopped hlt => exact Nat.sub_pos_of_lt hlt
  | moved hlt hpos _ ih =>
    simp only [PlayRun.after, List.length_cons]
    omega

/-- A playback loop uses one answer of the sink for each offer. -/
theorem PlayPasses.answers_eq_drop (h : PlayPasses cfg mem base want answers done run) :
    run.answers = answers.drop run.offers.length := by
  induction h with
  | ended => rfl
  | stopped => exact List.drop_one.symm
  | moved _ _ _ ih => exact ih

/-- A playback loop moves no byte back. -/
theorem PlayPasses.le_done (h : PlayPasses cfg mem base want answers done run) : done ≤ run.done := by
  induction h with
  | ended | stopped => exact Nat.le_refl _
  | moved _ _ _ ih => exact (Nat.le_add_right _ _).trans ih

/-- A playback loop whose first answer is not empty moves a byte (42_playback_dma.md R175). -/
theorem PlayPasses.lt_done (h : PlayPasses cfg mem base want answers done run) (hlt : done < want)
    (hpos : 0 < taken (answers.headD 0) (chunkSize cfg want done)) : done < run.done := by
  cases h with
  | ended hle => omega
  | stopped _ h0 => omega
  | moved _ hpos hrest => exact (Nat.lt_add_of_pos_right hpos).trans_le hrest.le_done

end PlayLoop

section PlayPseudocode
open Pseudocode

/-- An iteration of R170 that comes after the loop has ended leaves the loop where it stands. -/
theorem playIter_iterate_of_ended {s : State} {want : Nat} {l : PlayLoop} (h : l.stopped ∨ want ≤ l.done) (n : Nat) :
    (playIter s want)^[n] l = l :=
  Function.iterate_fixed (show playIter s want l = l from if_pos h) n

/-- A playback loop ends where the iterations of R170 do, once there are as many of them as bytes still wanted. -/
theorem PlayPasses.playIter_iterate {s : State} {want done : Nat} {answers : List Nat} {run : PlayRun}
    (h : PlayPasses s.cfg s.mem s.regs.playAddr want answers done run) :
    ∀ (offers : List Event) (n : Nat), want - done ≤ n →
      ∃ stopped, (playIter s want)^[n] ⟨done, answers, offers, false⟩ =
        ⟨run.done, run.answers, offers ++ run.offers, stopped⟩ := by
  induction h with
  | ended hle =>
    intro offers n _
    exact ⟨false, by rw [playIter_iterate_of_ended (.inr hle), List.append_nil]⟩
  | stopped hlt h0 =>
    intro offers n hn
    obtain ⟨n, rfl⟩ := Nat.exists_eq_add_one_of_ne_zero (show n ≠ 0 by omega)
    refine ⟨true, ?_⟩
    rw [Function.iterate_succ_apply, playIter_of_lt hlt, h0]
    exact playIter_iterate_of_ended (.inl rfl) n
  | @moved a _ d _ hlt hpos _ ih =>
    intro offers n hn
    obtain ⟨n, rfl⟩ := Nat.exists_eq_add_one_of_ne_zero (show n ≠ 0 by omega)
    obtain ⟨stopped, hl⟩ := ih (offers ++ [playOffer s.cfg s.mem s.regs.playAddr want d a]) n (by omega)
    refine ⟨stopped, ?_⟩
    rw [Function.iterate_succ_apply, playIter_of_lt hlt, List.headD_cons, beq_eq_false_iff_ne.mpr hpos.ne']
    exact hl.trans (by rw [List.append_assoc]; rfl)

/-- A playback service that answers a next state answers the one the pseudocode leaves (42_playback_dma.md R170). -/
theorem eq_playResult_of_exec_psvc {b : Nat} {s t : State} (h : exec (.psvc b) s = .next t) :
    t = playResult s (want .play b s) := by
  rcases execPsvc_next h with ⟨h0, rfl⟩ | ⟨hne, run, _, hl, rfl⟩
  · exact (if_pos h0).symm
  · obtain ⟨stopped, hiter⟩ := (playPasses_of_playLoop hl).playIter_iterate [] _ (Nat.sub_le _ 0)
    unfold playResult
    rw [if_neg hne, playFinish_eq, hiter]
    rfl

/-- Settles O18: a service that is refused makes a forbidden burst, and any other answers what the pseudocode
leaves. -/
theorem playServiceFollowsThePseudocode : Obligations.PlayServiceFollowsThePseudocode := by
  refine ⟨fun _ => rfl, fun b s hallowed => ?_⟩
  cases h : exec (.psvc b) s with
  | next t => exact congrArg _ (eq_playResult_of_exec_psvc h)
  | fault f => cases f
  | refused r =>
    obtain ⟨j, cursor, n, hj, hr, _⟩ := exec_psvc_refused_iff.mp h
    cases (burstRefusal_play_eq_none_iff.mpr (hallowed j cursor n hj)).symm.trans hr

end PlayPseudocode
end Sys2Proof.Machine
end

/-! The family of spec/42_playback_dma.md, part 2: what one service leaves (R173), the bounds of its loop (R177) and
the progress it makes (R175). -/

section
namespace Sys2Proof.Machine

/-- Settles O21: the fields `playFinish` writes, and a counter that goes down by no more than it holds. -/
theorem playServiceFrame : Obligations.PlayServiceFrame := by
  intro b s t h
  rcases execPsvc_next h with ⟨_, rfl⟩ | ⟨_, run, hle, _, rfl⟩
  · exact ⟨rfl, fun _ => rfl, 0, Nat.zero_le _, (BitVec.add_zero _).symm, rfl⟩
  · rw [playFinish_eq]
    exact ⟨rfl, fun _ => rfl, run.done, hle, rfl, toNat_sub_ofNat (hle.trans (want_le_remaining ..))⟩

/-- Of a list of offers, each taken at most whole and none of more than `n` bytes: the bytes taken are at most `n`
for each offer, and the bytes offered lie between them and `n` more for each offer not taken whole. -/
theorem sum_taken_bounds {n : Nat} {offers : List (Nat × Nat)} (h : ∀ o ∈ offers, o.1 ≤ n ∧ o.2 ≤ o.1) :
    (offers.map (·.2)).sum ≤ offers.length * n ∧
    (offers.map (·.2)).sum ≤ (offers.map (·.1)).sum ∧
    (offers.map (·.1)).sum ≤
      (offers.map (·.2)).sum + (offers.filter fun o => decide (o.2 < o.1)).length * n := by
  induction offers with
  | nil => simp
  | cons o offers ih =>
    obtain ⟨⟨hn, hle⟩, htail⟩ := List.forall_mem_cons.mp h
    obtain ⟨hlen, hread, hshort⟩ := ih htail
    by_cases ho : o.2 < o.1
    · simp only [List.map_cons, List.sum_cons, List.length_cons, List.filter_cons, ho, decide_true, if_true,
        Nat.succ_mul]
      omega
    · simp only [List.map_cons, List.sum_cons, List.length_cons, List.filter_cons, ho, decide_false,
        Bool.false_eq_true, if_false, Nat.succ_mul]
      omega

section Offered
variable {cfg : Config} {mem : Memory} {base : Word} {want : Nat} {answers : List Nat} {done : Nat} {run : PlayRun}

@[simp] theorem offered_playOffer (d a : Nat) :
    (playOffer cfg mem base want d a).offered = some (chunkSize cfg want d, taken a (chunkSize cfg want d)) := by
  simp [playOffer, Event.offered]

/-- An offer is of 1 to STAGING_BYTES bytes and taken at most whole (20_memory.md R67, 00_scope.md R19). -/
theorem PlayPasses.offered_bounds (h : PlayPasses cfg mem base want answers done run) :
    ∀ o ∈ run.offers.filterMap Event.offered,
      1 ≤ o.1 ∧ o.1 ≤ (cfg.stagingBytes : Nat) ∧ o.2 ≤ o.1 := by
  intro o ho
  obtain ⟨e, he, heo⟩ := List.mem_filterMap.mp ho
  obtain ⟨d, a, hlt, rfl⟩ := h.offers_mem e he
  rw [offered_playOffer] at heo
  cases heo
  exact ⟨chunkSize_pos hlt, chunkSize_le_staging .., taken_le ..⟩

/-- A playback loop moves the bytes the sink takes of its offers. -/
theorem PlayPasses.done_add_sum_taken (h : PlayPasses cfg mem base want answers done run) :
    done + ((run.offers.filterMap Event.offered).map (·.2)).sum = run.done := by
  induction h with
  | ended => rfl
  | stopped _ h0 =>
    simp only [List.filterMap_cons_some (offered_playOffer _ _), h0]
    rfl
  | moved _ _ _ ih =>
    simp only [PlayRun.after, List.filterMap_cons_some (offered_playOffer _ _), List.map_cons, List.sum_cons]
    omega

end Offered

/-- The counter goes down by the bytes a service moves, no more than it holds (42_playback_dma.md R173). -/
theorem remaining_sub_serviced {ch : Channel} {n : Nat} {s : State} (es : List Event) (mem : Memory)
    (sink : List Nat) (source : List (List Byte)) (hn : n ≤ (s.regs.get ch.remaining).toNat) :
    (s.regs.get ch.remaining).toNat - ((serviced ch n es mem sink source s).regs.get ch.remaining).toNat = n := by
  rw [serviced_get_remaining, toNat_sub_ofNat hn, Nat.sub_sub_self hn]

/-- The completion pulse is no offer. -/
theorem filterMap_offered_completion (p : Prop) [Decidable p] (l : Line) :
    (if p then [Event.pulse l] else []).filterMap Event.offered = [] := by
  split <;> rfl

/-- Settles O25: the offers are those of the loop, `done` is what the sink takes of them, and the other bounds
follow from those of each offer. -/
theorem playbackLoopBounds : Obligations.PlaybackLoopBounds := by
  intro b s t h
  rcases execPsvc_next h with ⟨_, rfl⟩ | ⟨_, run, hle, hl, rfl⟩
  · exact ⟨[], (List.append_nil _).symm, by simp⟩
  · have hp := playPasses_of_playLoop hl
    have hdone : s.regs.playRemaining.toNat - (playFinish s run).regs.playRemaining.toNat =
        ((run.offers.filterMap Event.offered).map (·.2)).sum := by
      rw [← Nat.zero_add (List.sum _), hp.done_add_sum_taken]
      exact remaining_sub_serviced (ch := .play) _ _ _ _ (hle.trans (want_le_remaining ..))
    refine ⟨_, (serviced_trace .play ..).trans (List.append_assoc ..), ?_⟩
    rw [List.filterMap_append, filterMap_offered_completion, List.append_nil, hdone]
    exact ⟨hp.offered_bounds, (List.length_filterMap_le ..).trans hp.offers_length_le,
      sum_taken_bounds fun o ho => (hp.offered_bounds o ho).2⟩

/-- A service that moves bytes, no more than the counter holds, leaves a smaller counter. -/
theorem serviced_remaining_lt {ch : Channel} {n : Nat} {s : State} (es : List Event) (mem : Memory)
    (sink : List Nat) (source : List (List Byte)) (hpos : 0 < n) (hn : n ≤ (s.regs.get ch.remaining).toNat) :
    ((serviced ch n es mem sink source s).regs.get ch.remaining).toNat < (s.regs.get ch.remaining).toNat := by
  have := remaining_sub_serviced es mem sink source hn
  omega

/-- A service with a budget and bytes left wants a byte. -/
theorem want_pos {ch : Channel} {b : Nat} {s : State} (hb : b ≠ 0) (hr : s.regs.get ch.remaining ≠ 0) :
    0 < want ch b s :=
  Nat.lt_min.mpr ⟨Nat.pos_of_ne_zero fun h => hr (BitVec.eq_of_toNat_eq h), Nat.pos_of_ne_zero hb⟩

theorem taken_succ_pos {a chunk : Nat} (h : 0 < chunk) : 0 < taken (a + 1) chunk :=
  Nat.lt_min.mpr ⟨Nat.succ_pos a, h⟩

/-- A capture loop whose first burst is not empty moves a byte (43_capture_dma.md R195). -/
theorem capLoop_done_pos {cfg : Config} {base : Word} {want : Nat} {x : Byte} {xs : List Byte}
    {rest : List (List Byte)} {mem : Memory} {run : CapRun}
    (h : capLoop cfg base want ((x :: xs) :: rest) mem 0 = .ok run) (hw : 0 < want) : 0 < run.done := by
  have hchunk := chunkSize_pos (cfg := cfg) hw
  rcases capLoop_ok_cases h with ⟨hle, _⟩ | ⟨_, h0, _⟩ | ⟨burst, rest, run', _, hpos, _, _, hl, rfl⟩
  · omega
  · rcases List.take_eq_nil_iff.mp h0 with h0 | h0
    · omega
    · cases h0
  · rw [Nat.zero_add] at hl
    have hle := (produced_length_le burst _).trans (chunkSize_le cfg want 0)
    exact hpos.trans_le (capLoop_done_le rest hl hle).1

/-- Settles O27: the service completes since no burst is refused, and its loop moves a byte since the first answer is
not empty. -/
theorem nonEmptyAnswerMakesProgress : Obligations.NonEmptyAnswerMakesProgress := by
  refine fun b s hb => ⟨fun hclear hr ⟨a, rest, ha⟩ => ?_, fun hclear hr ⟨x, xs, rest, hx⟩ => ?_⟩
  · obtain ⟨t, ht⟩ := execPsvc_ok hclear
    have hw : 0 < want .play b s := want_pos hb hr
    rcases execPsvc_next ht with ⟨h0, _⟩ | ⟨_, run, hle, hl, rfl⟩
    · omega
    · have hpos := (playPasses_of_playLoop hl).lt_done hw (by rw [ha]; exact taken_succ_pos (chunkSize_pos hw))
      exact ⟨_, ht, serviced_remaining_lt (ch := .play) _ _ _ _ hpos (hle.trans (want_le_remaining ..))⟩
  · obtain ⟨t, ht⟩ := execCsvc_ok hclear
    have hw : 0 < want .cap b s := want_pos hb hr
    rcases execCsvc_next ht with ⟨h0, _⟩ | ⟨_, run, hle, hl, rfl⟩
    · omega
    · rw [hx] at hl
      exact ⟨_, ht, serviced_remaining_lt (ch := .cap) _ _ _ _ (capLoop_done_pos hl hw)
        (hle.trans (want_le_remaining ..))⟩

end Sys2Proof.Machine
end

/-! The family of spec/42_playback_dma.md, part 3: any sequence of playback services: the bytes the sink receives
(R176), the one completion (R180) and the sink that accepts in full (R180, 70_reset_and_hazards.md R271). -/

section
namespace Sys2Proof.Machine

section Reads
variable (cfg : Config) (mem : Memory) (c : Word)

theorem localCursor_zero : localCursor c 0 = c := BitVec.add_zero c

theorem localCursor_add (a b : Nat) : localCursor c (a + b) = localCursor (localCursor c a) b := by
  unfold localCursor
  rw [BitVec.ofNat_add, BitVec.add_assoc]

/-- A prefix of a read is the shorter read from the same cursor. -/
theorem memRead_take {k n : Nat} (h : k ≤ n) : (memRead cfg mem c n).take k = memRead cfg mem c k := by
  unfold memRead burstAddrs
  rw [← List.map_take, ← List.map_take, List.take_range, Nat.min_eq_left h]

variable {cfg}

/-- With an address width of at most 32 bits an address is the same from an advanced cursor, whether or not the
cursor has passed 2^32 (20_memory.md R71). -/
theorem physAddr_localCursor (h : cfg.paddrBits ≤ 32) (a k : Nat) :
    physAddr cfg (localCursor c a) k = physAddr cfg c (a + k) := by
  unfold physAddr localCursor
  rw [BitVec.toNat_add, BitVec.toNat_ofNat, Nat.add_mod_mod, Nat.add_mod,
    Nat.mod_mod_of_dvd _ (Nat.pow_dvd_pow 2 h), ← Nat.add_mod, Nat.add_assoc]

/-- A read goes on where a shorter one ends. -/
theorem memRead_add (h : cfg.paddrBits ≤ 32) (a b : Nat) :
    memRead cfg mem c (a + b) = memRead cfg mem c a ++ memRead cfg mem (localCursor c a) b := by
  have hcursor : physAddr cfg (localCursor c a) = physAddr cfg c ∘ (a + ·) :=
    funext (physAddr_localCursor c h a)
  unfold memRead burstAddrs
  rw [List.range_add, List.map_append, List.map_append, hcursor, ← List.map_map]

end Reads

/-- The sink consumes of an offer the bytes from the cursor on, as many as it takes. -/
theorem sunk_playOffer (cfg : Config) (mem : Memory) (base : Word) (want d a : Nat) :
    (playOffer cfg mem base want d a).sunk =
      memRead cfg mem (localCursor base d) (taken a (chunkSize cfg want d)) :=
  memRead_take _ _ _ (taken_le _ _)

/-- Over a playback loop the sink consumes the bytes from where the loop stands on, as many as it moves. -/
theorem PlayPasses.sunk_offers {cfg : Config} {mem : Memory} {base : Word} {want done : Nat} {answers : List Nat}
    {run : PlayRun} (h : PlayPasses cfg mem base want answers done run) (hbits : cfg.paddrBits ≤ 32) :
    sunk run.offers = memRead cfg mem (localCursor base done) (run.done - done) := by
  induction h with
  | ended => rw [Nat.sub_self]; rfl
  | stopped _ h0 =>
    rw [Nat.sub_self, sunk, List.flatMap_singleton, sunk_playOffer, h0]
  | @moved a rest d run _ _ hrest ih =>
    have hmove := hrest.le_done
    rw [show (run.after _).done - d =
        taken a (chunkSize cfg want d) + (run.done - (d + taken a (chunkSize cfg want d))) by
      simp only [PlayRun.after]; omega]
    rw [memRead_add _ _ hbits, ← localCursor_add, ← ih, ← sunk_playOffer]
    rfl

theorem sub_eq_ofNat {v w : Word} (h : v.toNat ≤ w.toNat) : w - v = BitVec.ofNat 32 (w.toNat - v.toNat) :=
  BitVec.eq_of_toNat_eq (by
    rw [BitVec.toNat_sub_of_le h, BitVec.toNat_ofNat, Nat.mod_eq_of_lt (by omega)])

/-- From `s` to `t` host memory stayed as it was and the sink consumed the bytes from the cursor on, as many as the
counter went down by (42_playback_dma.md R176). -/
structure FeedsSink (s t : State) : Prop where
  cfg : t.cfg = s.cfg
  mem : t.mem = s.mem
  moves : MovesTogether .play s t
  sunk : s.cfg.paddrBits ≤ 32 → sunk t.trace = sunk s.trace ++
    memRead s.cfg s.mem s.regs.playAddr (s.regs.playRemaining.toNat - t.regs.playRemaining.toNat)

theorem FeedsSink.refl (s : State) : FeedsSink s s :=
  ⟨rfl, rfl, .of_eq rfl rfl, fun _ => by rw [Nat.sub_self]; exact (List.append_nil _).symm⟩

/-- The later services read on from the cursor the earlier ones left. -/
theorem FeedsSink.trans {s t u : State} (h : FeedsSink s t) (h' : FeedsSink t u) : FeedsSink s u := by
  refine ⟨h'.cfg.trans h.cfg, h'.mem.trans h.mem, h.moves.trans h'.moves, fun hbits => ?_⟩
  obtain ⟨hle, haddr⟩ : t.regs.playRemaining.toNat ≤ s.regs.playRemaining.toNat ∧
    t.regs.playAddr = s.regs.playAddr + (s.regs.playRemaining - t.regs.playRemaining) := h.moves
  have hle' : u.regs.playRemaining.toNat ≤ t.regs.playRemaining.toNat := h'.moves.1
  have hcursor : t.regs.playAddr =
      localCursor s.regs.playAddr (s.regs.playRemaining.toNat - t.regs.playRemaining.toNat) := by
    rw [haddr, sub_eq_ofNat hle]
    rfl
  rw [h'.sunk (h.cfg ▸ hbits), h.sunk hbits, h.cfg, h.mem, List.append_assoc, hcursor, ← memRead_add _ _ hbits]
  congr 2
  omega

/-- The completion pulse gives the sink no byte. -/
theorem sunk_completion (p : Prop) [Decidable p] (l : Line) : sunk (if p then [.pulse l] else []) = [] := by
  split <;> rfl

/-- One playback service feeds the sink. -/
theorem exec_psvc_feedsSink {b : Nat} {s t : State} (h : exec (.psvc b) s = .next t) : FeedsSink s t := by
  have hmoves : MovesTogether .play s t := exec_movesTogether (.inl rfl) h
  rcases execPsvc_next h with ⟨_, rfl⟩ | ⟨_, run, hle, hl, rfl⟩
  · exact .refl _
  · refine ⟨by rw [playFinish_eq], execPsvc_mem h, hmoves, fun hbits => ?_⟩
    have hdone : s.regs.playRemaining.toNat - (playFinish s run).regs.playRemaining.toNat = run.done :=
      remaining_sub_serviced (ch := .play) _ _ _ _ (hle.trans (want_le_remaining ..))
    have htrace := serviced_trace .play run.done run.offers s.mem run.answers s.sourceAnswers s
    rw [hdone, playFinish_eq_serviced, htrace, sunk_append, sunk_append, sunk_completion, List.append_nil,
      (playPasses_of_playLoop hl).sunk_offers hbits, localCursor_zero]
    rfl

/-- A reflexive and transitive relation that holds over every playback service holds over a sequence of them. -/
theorem runAll_psvc_rel {R : State → State → Prop} (hrefl : ∀ s, R s s)
    (htrans : ∀ {s t u}, R s t → R t u → R s u) (hexec : ∀ {b s t}, exec (.psvc b) s = .next t → R s t)
    {bs : List Nat} {s t : State} (h : runAll (bs.map .psvc) s = .next t) : R s t :=
  runAll_rel (P := fun i => ∃ b, i = .psvc b) hrefl htrans (by rintro _ _ _ ⟨b, rfl⟩; exact hexec)
    (List.forall_mem_map.mpr fun b _ => ⟨b, rfl⟩) h

/-- Settles O23: every service feeds the sink, and each reads on from where the one before it ended. -/
theorem sinkReceivesTheContiguousBytes : Obligations.SinkReceivesTheContiguousBytes := by
  intro bs s t hbits h
  have hfeeds : FeedsSink s t := runAll_psvc_rel .refl .trans exec_psvc_feedsSink h
  refine ⟨hfeeds.moves.2, (hfeeds.sunk hbits).trans ?_⟩
  rw [memRead, burstAddrs, List.map_map]
  rfl

/-- From `s` to `t` the transfer of `ch` went on: cursor and counter moved together, the enable bit stayed, and an
enabled channel pulsed its completion line once if its counter came to 0, and nothing otherwise
(42_playback_dma.md R180). -/
structure TransferGoesOn (ch : Channel) (s t : State) : Prop where
  moves : MovesTogether ch s t
  ctrl : t.regs.get ch.ctrl = s.regs.get ch.ctrl
  pulses : enabled (s.regs.get ch.ctrl) = true → pulses t.trace = pulses s.trace ++
    (if s.regs.get ch.remaining ≠ 0 ∧ t.regs.get ch.remaining = 0 then [ch.doneLine] else [])

theorem TransferGoesOn.refl (ch : Channel) (s : State) : TransferGoesOn ch s s :=
  ⟨.of_eq rfl rfl, rfl, fun _ => by rw [if_neg fun h => h.1 h.2, List.append_nil]⟩

theorem MovesTogether.remaining_eq_zero {ch : Channel} {s t : State} (h : MovesTogether ch s t)
    (h0 : s.regs.get ch.remaining = 0) : t.regs.get ch.remaining = 0 := by
  have hle := h.1
  rw [h0] at hle
  exact BitVec.eq_of_toNat_eq (Nat.le_zero.mp hle)

/-- The counter comes to 0 before `t` or after it, but not both. -/
theorem TransferGoesOn.trans {ch : Channel} {s t u : State} (h : TransferGoesOn ch s t)
    (h' : TransferGoesOn ch t u) : TransferGoesOn ch s u := by
  refine ⟨h.moves.trans h'.moves, h'.ctrl.trans h.ctrl, fun hen => ?_⟩
  rw [h'.pulses (h.ctrl ▸ hen), h.pulses hen, List.append_assoc]
  congr 1
  by_cases ht : t.regs.get ch.remaining = 0
  · rw [if_neg (fun hc => hc.1 ht : ¬ (t.regs.get ch.remaining ≠ 0 ∧ _)), List.append_nil]
    exact if_congr (and_congr_right fun _ => iff_of_true ht (h'.moves.remaining_eq_zero ht)) rfl rfl
  · have hs : s.regs.get ch.remaining ≠ 0 := mt h.moves.remaining_eq_zero ht
    rw [if_neg fun hc => ht hc.2, List.nil_append]
    exact if_congr ((and_iff_right ht).trans (and_iff_right hs).symm) rfl rfl

theorem pulses_completion (p : Prop) [Decidable p] (l : Line) :
    pulses (if p then [.pulse l] else []) = if p then [l] else [] := by
  split <;> rfl

/-- One service of a channel goes on with its transfer. -/
theorem exec_transferGoesOn {i : Instr} {ch : Channel} {s t : State} (hi : servicedChannel i = some ch)
    (h : exec i s = .next t) : TransferGoesOn ch s t := by
  refine ⟨exec_movesTogether (.inl hi) h, exec_service_get_ctrl hi h, fun hen => ?_⟩
  rcases exec_service_cases hi h with rfl | ⟨n, es, mem, sink, source, hrem, _, hes, rfl⟩
  · exact (TransferGoesOn.refl ch t).pulses hen
  · rw [serviced_trace, pulses_append, pulses_append, hes, List.append_nil, serviced_get_remaining,
      pulses_completion]
    exact congrArg _ (if_congr ((and_iff_right hen).trans (and_iff_right hrem).symm) rfl rfl)

/-- Settles O31: the services go on with one transfer, and a drained channel wants nothing. -/
theorem armedPlaybackCompletesExactlyOnce : Obligations.ArmedPlaybackCompletesExactlyOnce := by
  intro bs s t hen hrem h
  have hgo : TransferGoesOn .play s t :=
    runAll_psvc_rel (.refl .play) .trans (exec_transferGoesOn (ch := .play) rfl) h
  refine ⟨hgo.moves.2, (hgo.pulses hen).trans ?_, fun h0 b => ?_⟩
  · congr 2
    exact propext (and_iff_right hrem)
  · refine (budgetEntersOnlyThroughWant b t).1 ?_
    rw [h0]
    exact Nat.zero_min b

/-- Where a service with the whole counter as its budget may make no refused burst, none may with any budget. -/
theorem burstsClear_of_remaining {ch : Channel} {s : State}
    (h : BurstsClear ch (s.regs.get ch.remaining).toNat s) (b : Nat) : BurstsClear ch b s := by
  intro d hd k hk
  have hle := (want_le_remaining ch b s).trans_eq (want_of_remaining_le le_rfl).symm
  exact h d (hd.trans_le hle) k (hk.trans (min_le_min_left _ (Nat.sub_le_sub_right hle d)))

/-- Where no burst from the cursor on is refused as far as the counter reaches, none is refused from a cursor that has
advanced by what the counter has gone down by. -/
theorem burstsClear_advance {ch : Channel} {n : Nat} {s t : State} (hcfg : t.cfg = s.cfg)
    (haddr : t.regs.get ch.addr = localCursor (s.regs.get ch.addr) n)
    (hrem : (t.regs.get ch.remaining).toNat = (s.regs.get ch.remaining).toNat - n)
    (h : BurstsClear ch (s.regs.get ch.remaining).toNat s) :
    BurstsClear ch (t.regs.get ch.remaining).toNat t := by
  intro d hd k hk
  rw [want_of_remaining_le le_rfl, hrem] at hd hk
  rw [hcfg, chunkSize, Nat.sub_sub] at hk
  rw [hcfg, haddr, ← localCursor_add]
  refine h (n + d) ?_ k ?_ <;> rw [want_of_remaining_le le_rfl]
  · omega
  · exact hk

/-- No burst from the cursor on, as far as the counter reaches, is refused, and the sink has an answer for each byte
left, each of a whole chunk (the premises 42_playback_dma.md R180 adds). -/
structure AcceptsInFull (s : State) : Prop where
  clear : BurstsClear .play s.regs.playRemaining.toNat s
  whole : ∀ a ∈ s.sinkAnswers, (s.cfg.stagingBytes : Nat) ≤ a
  enough : s.regs.playRemaining.toNat ≤ s.sinkAnswers.length

/-- A loop whose every offer is accepted whole moves all it wants. -/
theorem PlayPasses.done_of_whole {cfg : Config} {mem : Memory} {base : Word} {want done : Nat} {answers : List Nat}
    {run : PlayRun} (h : PlayPasses cfg mem base want answers done run)
    (hwhole : ∀ a ∈ answers, (cfg.stagingBytes : Nat) ≤ a) (hlen : want - done ≤ answers.length)
    (hle : done ≤ want) : run.done = want := by
  induction h with
  | ended hge => exact Nat.le_antisymm hle hge
  | @stopped answers d hlt h0 =>
    cases answers with
    | nil => exact absurd hlen (Nat.not_le.mpr (Nat.sub_pos_of_lt hlt))
    | cons a rest =>
      have hchunk := chunkSize_pos (cfg := cfg) hlt
      have ha := (chunkSize_le_staging cfg want d).trans (hwhole a List.mem_cons_self)
      rw [List.headD_cons, taken, Nat.min_eq_right ha] at h0
      omega
  | @moved a rest d run hlt hpos _ ih =>
    have hmove := (taken_le a _).trans (chunkSize_le cfg want d)
    rw [List.length_cons] at hlen
    exact ih (fun x hx => hwhole x (List.mem_cons_of_mem _ hx)) (by omega) (by omega)

/-- One service of a sink that accepts in full takes its budget off the counter, as far as that reaches, and leaves a
sink that accepts in full. -/
theorem AcceptsInFull.service {s : State} (h : AcceptsInFull s) (b : Nat) :
    ∃ t, exec (.psvc b) s = .next t ∧ AcceptsInFull t ∧
      t.regs.playRemaining.toNat = s.regs.playRemaining.toNat - b := by
  have hle : want .play b s ≤ s.regs.playRemaining.toNat := want_le_remaining .play b s
  have hleft : s.regs.playRemaining.toNat - want .play b s = s.regs.playRemaining.toNat - b := tsub_min
  obtain ⟨t, ht⟩ := execPsvc_ok (burstsClear_of_remaining (ch := .play) h.clear b)
  refine ⟨t, ht, ?_⟩
  rcases execPsvc_next ht with ⟨h0, rfl⟩ | ⟨_, run, _, hl, rfl⟩
  · rw [h0] at hleft
    exact ⟨h, hleft⟩
  · have hp := playPasses_of_playLoop hl
    have hdone : run.done = want .play b s :=
      hp.done_of_whole h.whole (Nat.le_trans (Nat.le_trans (Nat.sub_le _ _) hle) h.enough) (Nat.zero_le _)
    have hrem : (playFinish s run).regs.playRemaining.toNat = s.regs.playRemaining.toNat - run.done := by
      rw [playFinish_eq]
      exact toNat_sub_ofNat (hdone ▸ hle)
    have hcfg : (playFinish s run).cfg = s.cfg := by rw [playFinish_eq]
    have hanswers : (playFinish s run).sinkAnswers = s.sinkAnswers.drop run.offers.length := by
      rw [playFinish_eq, ← hp.answers_eq_drop]
    have hoffers := hp.offers_length_le
    have henough := h.enough
    refine ⟨⟨?_, ?_, ?_⟩, by rw [hrem, hdone, hleft]⟩
    · exact burstsClear_advance (ch := .play) hcfg (by rw [playFinish_eq]; rfl) hrem h.clear
    · rw [hanswers, hcfg]
      exact fun a ha => h.whole a (List.mem_of_mem_drop ha)
    · rw [hanswers, hrem, List.length_drop]
      omega

/-- Services of a sink that accepts in full take their budgets off the counter, as far as it reaches. -/
theorem AcceptsInFull.services {s : State} (h : AcceptsInFull s) (bs : List Nat) :
    ∃ t, runAll (bs.map .psvc) s = .next t ∧ t.regs.playRemaining.toNat = s.regs.playRemaining.toNat - bs.sum := by
  induction bs generalizing s with
  | nil => exact ⟨s, rfl, rfl⟩
  | cons b bs ih =>
    obtain ⟨u, hu, hfull, hrem⟩ := h.service b
    obtain ⟨t, ht, hleft⟩ := ih hfull
    exact ⟨t, (runAll_cons_of_next hu _).trans ht, by rw [hleft, hrem, List.sum_cons, Nat.sub_sub]⟩

/-- Settles O33: the services complete and drain the counter, and R180 says what a drained transfer has done. -/
theorem fullAcceptanceDrainsThePlayback : Obligations.FullAcceptanceDrainsThePlayback := by
  intro bs s hclear hen hrem hwhole henough hbudget
  obtain ⟨t, ht, hleft⟩ := (AcceptsInFull.mk hclear hwhole henough).services bs
  have h0 : t.regs.playRemaining = 0 := BitVec.eq_of_toNat_eq (hleft.trans (Nat.sub_eq_zero_of_le hbudget))
  obtain ⟨haddr, hpulses, _⟩ := armedPlaybackCompletesExactlyOnce bs s t hen hrem ht
  rw [h0] at haddr
  rw [if_pos h0] at hpulses
  exact ⟨t, ht, h0, haddr.trans (by simp), hpulses⟩

end Sys2Proof.Machine
end

/-! The family of spec/43_capture_dma.md, part 1: the passes of the chunk loop (R192), and the service that does what
the pseudocode says (R190). -/

section
namespace Sys2Proof.Machine

/-- The passes a capture loop makes from where it stands and what they leave, one constructor for each thing a pass
can do (43_capture_dma.md R192). -/
inductive CapPasses (cfg : Config) (base : Word) (want : Nat) :
    List (List Byte) → Memory → Nat → CapRun → Prop where
  /-- Nothing more is wanted. -/
  | ended {answers : List (List Byte)} {mem : Memory} {done : Nat} (hle : want ≤ done) :
      CapPasses cfg base want answers mem done ⟨done, mem, answers, []⟩
  /-- The source produces nothing for the pull. -/
  | stopped {answers : List (List Byte)} {mem : Memory} {done : Nat} (hlt : done < want)
      (h0 : produced (answers.headD []) (chunkSize cfg want done) = []) :
      CapPasses cfg base want answers mem done
        ⟨done, mem, answers.tail, [capPull cfg want done (answers.headD [])]⟩
  /-- The source produces bytes, which are stored at the local cursor, and the loop goes on. -/
  | moved {burst : List Byte} {rest : List (List Byte)} {mem : Memory} {done : Nat} {run : CapRun}
      (hlt : done < want) (hpos : 0 < (produced burst (chunkSize cfg want done)).length)
      (hrest : CapPasses cfg base want rest
        (memWrite cfg mem (localCursor base done) (produced burst (chunkSize cfg want done)))
        (done + (produced burst (chunkSize cfg want done)).length) run) :
      CapPasses cfg base want (burst :: rest) mem done (run.after (capPull cfg want done burst))

section CapLoop
variable {cfg : Config} {base : Word} {want : Nat} {answers : List (List Byte)} {mem : Memory} {done : Nat}
  {run : CapRun}

/-- A capture loop that is not refused makes its passes. -/
theorem capPasses_of_capLoop (h : capLoop cfg base want answers mem done = .ok run) :
    CapPasses cfg base want answers mem done run := by
  induction answers generalizing mem done run with
  | nil =>
    rcases capLoop_ok_cases h with ⟨hle, rfl⟩ | ⟨hlt, h0, rfl⟩ | ⟨_, _, _, _, _, _, hc, _⟩
    · exact .ended hle
    · exact .stopped hlt h0
    · cases hc
  | cons burst rest ih =>
    rcases capLoop_ok_cases h with ⟨hle, rfl⟩ | ⟨hlt, h0, rfl⟩ | ⟨_, _, _, hlt, hpos, _, hc, hl, rfl⟩
    · exact .ended hle
    · exact .stopped hlt h0
    · cases hc
      exact .moved hlt hpos (ih hl)

/-- Every pull of a capture loop is that of a pass made while bytes are wanted. -/
theorem CapPasses.pulls_mem (h : CapPasses cfg base want answers mem done run) :
    ∀ e ∈ run.pulls, ∃ d burst, d < want ∧ e = capPull cfg want d burst := by
  induction h with
  | ended => nofun
  | stopped hlt => exact List.forall_mem_singleton.mpr ⟨_, _, hlt, rfl⟩
  | moved hlt _ _ ih => exact List.forall_mem_cons.mpr ⟨⟨_, _, hlt, rfl⟩, ih⟩

/-- A capture loop makes at most one pull for each byte still wanted (43_capture_dma.md R197). -/
theorem CapPasses.pulls_length_le (h : CapPasses cfg base want answers mem done run) :
    run.pulls.length ≤ want - done := by
  induction h with
  | ended => exact Nat.zero_le _
  | stopped hlt => exact Nat.sub_pos_of_lt hlt
  | moved hlt hpos _ ih =>
    simp only [CapRun.after, List.length_cons]
    omega

/-- Over one pull the source produces the bytes of its burst, at most those asked for. -/
theorem captured_singleton_capPull (d : Nat) (burst : List Byte) :
    captured [capPull cfg want d burst] = produced burst (chunkSize cfg want d) := List.append_nil _

/-- Before the rest of a run the source produces the bytes of the first pull. -/
theorem captured_after_capPull (d : Nat) (burst : List Byte) :
    captured (run.after (capPull cfg want d burst)).pulls =
      produced burst (chunkSize cfg want d) ++ captured run.pulls := rfl

/-- A capture loop moves the bytes the source produces for its pulls. -/
theorem CapPasses.done_add_length_captured (h : CapPasses cfg base want answers mem done run) :
    done + (captured run.pulls).length = run.done := by
  induction h with
  | ended => rfl
  | stopped _ h0 =>
    rw [captured_singleton_capPull, h0]
    rfl
  | moved _ _ _ ih =>
    rw [captured_after_capPull, List.length_append, ← Nat.add_assoc]
    exact ih

/-- An address that is none of those of the bytes moved reads after a capture loop as before (43_capture_dma.md
R195). -/
theorem CapPasses.read_outside (h : CapPasses cfg base want answers mem done run) (hm : mem.wf = true) {a : Nat}
    (ha : ∀ d k, d + k < run.done → physAddr cfg (localCursor base d) k ≠ a) : run.mem.read a = mem.read a := by
  induction h with
  | ended | stopped => rfl
  | @moved _ _ _ d _ _ _ hrest ih =>
    have hmove := hrest.done_add_length_captured
    refine (ih (memWrite_wf _ _ _ hm) ha).trans (memWrite_read_outside _ _ _ hm a fun k hk => ha d k ?_)
    simp only [CapRun.after]
    omega

end CapLoop

section CapPseudocode
open Pseudocode

/-- An iteration of R190 that comes after the loop has ended leaves the loop where it stands. -/
theorem capIter_iterate_of_ended {s : State} {want : Nat} {l : CapLoop} (h : l.stopped ∨ want ≤ l.done) (n : Nat) :
    (capIter s want)^[n] l = l :=
  Function.iterate_fixed (show capIter s want l = l from if_pos h) n

/-- A capture loop ends where the iterations of R190 do, once there are as many of them as bytes still wanted. -/
theorem CapPasses.capIter_iterate {s : State} {want done : Nat} {answers : List (List Byte)} {mem : Memory}
    {run : CapRun} (h : CapPasses s.cfg s.regs.capAddr want answers mem done run) :
    ∀ (pulls : List Event) (n : Nat), want - done ≤ n →
      ∃ stopped, (capIter s want)^[n] ⟨done, mem, answers, pulls, false⟩ =
        ⟨run.done, run.mem, run.answers, pulls ++ run.pulls, stopped⟩ := by
  induction h with
  | ended hle =>
    intro pulls n _
    exact ⟨false, by rw [capIter_iterate_of_ended (.inr hle), List.append_nil]⟩
  | stopped hlt h0 =>
    intro pulls n hn
    obtain ⟨n, rfl⟩ := Nat.exists_eq_add_one_of_ne_zero (show n ≠ 0 by omega)
    refine ⟨true, ?_⟩
    rw [Function.iterate_succ_apply, capIter_of_lt hlt, h0]
    exact capIter_iterate_of_ended (.inl rfl) n
  | @moved burst _ _ d _ hlt hpos _ ih =>
    intro pulls n hn
    obtain ⟨n, rfl⟩ := Nat.exists_eq_add_one_of_ne_zero (show n ≠ 0 by omega)
    obtain ⟨stopped, hl⟩ := ih (pulls ++ [capPull s.cfg want d burst]) n (by omega)
    refine ⟨stopped, ?_⟩
    rw [Function.iterate_succ_apply, capIter_of_lt hlt, List.headD_cons, beq_eq_false_iff_ne.mpr hpos.ne']
    exact hl.trans (by rw [List.append_assoc]; rfl)

/-- A capture service that answers a next state answers the one the pseudocode leaves (43_capture_dma.md R190). -/
theorem eq_capResult_of_exec_csvc {b : Nat} {s t : State} (h : exec (.csvc b) s = .next t) :
    t = capResult s (want .cap b s) := by
  rcases execCsvc_next h with ⟨h0, rfl⟩ | ⟨hne, run, _, hl, rfl⟩
  · exact (if_pos h0).symm
  · obtain ⟨stopped, hiter⟩ := (capPasses_of_capLoop hl).capIter_iterate [] _ (Nat.sub_le _ 0)
    unfold capResult
    rw [if_neg hne, capFinish_eq, hiter]
    rfl

/-- Settles O19: a service that is refused makes a forbidden burst, and any other answers what the pseudocode
leaves. -/
theorem captureServiceFollowsThePseudocode : Obligations.CaptureServiceFollowsThePseudocode := by
  refine ⟨fun _ => rfl, fun b s hallowed => ?_⟩
  cases h : exec (.csvc b) s with
  | next t => exact congrArg _ (eq_capResult_of_exec_csvc h)
  | fault f => cases f
  | refused r =>
    obtain ⟨j, cursor, n, hj, hr, _⟩ := exec_csvc_refused_iff.mp h
    cases (burstRefusal_cap_eq_none_iff.mpr (hallowed j cursor n hj)).symm.trans hr

end CapPseudocode
end Sys2Proof.Machine
end

/-! The family of spec/43_capture_dma.md, part 2: what one service leaves (R193, R195) and the bounds of its loop
(R197). -/

section
namespace Sys2Proof.Machine

/-- Settles O22: the fields `capFinish` writes, a counter that goes down by no more than it holds, and the addresses
the loop does not reach. -/
theorem captureServiceFrame : Obligations.CaptureServiceFrame := by
  intro b s t hm h
  rcases execCsvc_next h with ⟨_, rfl⟩ | ⟨_, run, hle, hl, rfl⟩
  · exact ⟨rfl, 0, Nat.zero_le _, (BitVec.add_zero _).symm, rfl, fun _ _ => rfl⟩
  · rw [capFinish_eq]
    exact ⟨rfl, run.done, hle, rfl, toNat_sub_ofNat (hle.trans (want_le_remaining ..)),
      fun _ => (capPasses_of_capLoop hl).read_outside hm⟩

/-- A pull asks for 1 to STAGING_BYTES bytes and is answered with at most as many (20_memory.md R67, 00_scope.md
R20). -/
theorem CapPasses.pulled_bounds {cfg : Config} {base : Word} {want : Nat} {answers : List (List Byte)} {mem : Memory}
    {done : Nat} {run : CapRun} (h : CapPasses cfg base want answers mem done run) :
    ∀ p ∈ run.pulls.filterMap Event.pulled, 1 ≤ p.1 ∧ p.1 ≤ (cfg.stagingBytes : Nat) ∧ p.2 ≤ p.1 := by
  intro p hp
  obtain ⟨e, he, hep⟩ := List.mem_filterMap.mp hp
  obtain ⟨d, burst, hlt, rfl⟩ := h.pulls_mem e he
  cases hep
  exact ⟨chunkSize_pos hlt, chunkSize_le_staging .., produced_length_le ..⟩

/-- The counts produced of the pulls of a trace add up to the bytes the source produced. -/
theorem sum_pulled_eq_length_captured (es : List Event) :
    ((es.filterMap Event.pulled).map (·.2)).sum = (captured es).length := by
  induction es with
  | nil => rfl
  | cons e es ih =>
    rw [captured, List.flatMap_cons, List.length_append, ← captured, ← ih]
    cases e with
    | pull => rfl
    | readData | pulse | diag | offer => exact (Nat.zero_add _).symm

/-- The completion pulse is no pull. -/
theorem filterMap_pulled_completion (p : Prop) [Decidable p] (l : Line) :
    (if p then [Event.pulse l] else []).filterMap Event.pulled = [] := by
  split <;> rfl

/-- The counter goes down by the bytes the source produces over a capture loop (43_capture_dma.md R193). -/
theorem remaining_sub_capFinish {b : Nat} {s : State} {run : CapRun} (hle : run.done ≤ want .cap b s)
    (hp : CapPasses s.cfg s.regs.capAddr (want .cap b s) s.sourceAnswers s.mem 0 run) :
    s.regs.capRemaining.toNat - (capFinish s run).regs.capRemaining.toNat = (captured run.pulls).length := by
  rw [← Nat.zero_add (List.length _), hp.done_add_length_captured]
  exact remaining_sub_serviced (ch := .cap) _ _ _ _ (hle.trans (want_le_remaining ..))

/-- Settles O26: the pulls are those of the loop, `done` is what the source produces for them, and the other bounds
follow from those of each pull. -/
theorem captureLoopBounds : Obligations.CaptureLoopBounds := by
  intro b s t h
  rcases execCsvc_next h with ⟨_, rfl⟩ | ⟨_, run, hle, hl, rfl⟩
  · exact ⟨[], (List.append_nil _).symm, by simp⟩
  · have hp := capPasses_of_capLoop hl
    refine ⟨_, (serviced_trace .cap ..).trans (List.append_assoc ..), ?_⟩
    rw [List.filterMap_append, filterMap_pulled_completion, List.append_nil, remaining_sub_capFinish hle hp,
      ← sum_pulled_eq_length_captured]
    exact ⟨hp.pulled_bounds, (List.length_filterMap_le ..).trans hp.pulls_length_le,
      (sum_taken_bounds fun p hmem => (hp.pulled_bounds p hmem).2).1, rfl⟩

end Sys2Proof.Machine
end

/-! The family of spec/43_capture_dma.md, part 3: any sequence of capture services: the bytes host memory receives
(R196) and the one completion (R200). -/

section
namespace Sys2Proof.Machine

section Stores
variable (cfg : Config) (c : Word) (m : Memory)

/-- A burst store goes on where a shorter one ends. -/
theorem memWriteFrom_append (k : Nat) (bs cs : List Byte) :
    memWriteFrom cfg c m k (bs ++ cs) = memWriteFrom cfg c (memWriteFrom cfg c m k bs) (k + bs.length) cs := by
  simp only [memWriteFrom_eq_foldl, List.zipIdx_append, List.foldl_append]

variable {cfg}

/-- With an address width of at most 32 bits a burst store from an advanced cursor is one further on from the cursor
(20_memory.md R71). -/
theorem memWriteFrom_localCursor (h : cfg.paddrBits ≤ 32) (a k : Nat) (bs : List Byte) :
    memWriteFrom cfg (localCursor c a) m k bs = memWriteFrom cfg c m (a + k) bs := by
  induction bs generalizing m k with
  | nil => rfl
  | cons b bs ih =>
    simp only [memWriteFrom]
    rw [physAddr_localCursor c h, ih, Nat.add_assoc]

/-- Two stores, the second from the cursor the first one left, are one store of the bytes of both. -/
theorem memWrite_append (h : cfg.paddrBits ≤ 32) (bs cs : List Byte) :
    memWrite cfg m c (bs ++ cs) = memWrite cfg (memWrite cfg m c bs) (localCursor c bs.length) cs := by
  unfold memWrite
  rw [memWriteFrom_append, memWriteFrom_localCursor _ _ h, Nat.zero_add, Nat.add_zero]

/-- No two bytes of a burst have one address while the address width holds the burst. -/
theorem physAddr_inj {n i j : Nat} (hn : n ≤ 2 ^ cfg.paddrBits) (hi : i < n) (hj : j < n)
    (h : physAddr cfg c i = physAddr cfg c j) : i = j :=
  (Nat.ModEq.add_left_cancel' c.toNat h).eq_of_lt_of_lt (hi.trans_le hn) (hj.trans_le hn)

variable {m}

/-- A burst store that the address width holds leaves each byte at its address. -/
theorem memWrite_read_inside (hm : m.wf = true) {bs : List Byte} (hlen : bs.length ≤ 2 ^ cfg.paddrBits) (k : Nat)
    (hk : k < bs.length) : (memWrite cfg m c bs).read (physAddr cfg c k) = bs[k] := by
  have hinj (i j : Nat) (hi : i < bs.length) (hj : j < bs.length)
      (h : physAddr cfg c (0 + i) = physAddr cfg c (0 + j)) : i = j := by
    rw [Nat.zero_add, Nat.zero_add] at h
    exact physAddr_inj c hlen hi hj h
  have := memWriteFrom_read_inside cfg c bs hm 0 hinj k hk
  rwa [Nat.zero_add] at this

end Stores

/-- Over a capture loop host memory receives the bytes the source produces, from where the loop stands on
(43_capture_dma.md R196). -/
theorem CapPasses.mem_eq_memWrite {cfg : Config} {base : Word} {want : Nat} {answers : List (List Byte)} {mem : Memory}
    {done : Nat} {run : CapRun} (h : CapPasses cfg base want answers mem done run) (hbits : cfg.paddrBits ≤ 32) :
    run.mem = memWrite cfg mem (localCursor base done) (captured run.pulls) := by
  induction h with
  | ended => rfl
  | stopped _ h0 =>
    rw [captured_singleton_capPull, h0]
    rfl
  | moved _ _ _ ih =>
    rw [captured_after_capPull, memWrite_append _ _ hbits, ← localCursor_add]
    exact ih

/-- From `s` to `t` the source produced as many bytes as the counter went down by, and host memory received them in
stream order from the cursor on (43_capture_dma.md R196). -/
structure FillsMemory (s t : State) : Prop where
  cfg : t.cfg = s.cfg
  moves : MovesTogether .cap s t
  stream : ∃ stream, captured t.trace = captured s.trace ++ stream ∧
    stream.length = s.regs.capRemaining.toNat - t.regs.capRemaining.toNat ∧
    (s.cfg.paddrBits ≤ 32 → t.mem = memWrite s.cfg s.mem s.regs.capAddr stream)

theorem FillsMemory.refl (s : State) : FillsMemory s s :=
  ⟨rfl, .of_eq rfl rfl, [], (List.append_nil _).symm, (Nat.sub_self _).symm, fun _ => rfl⟩

/-- The later services store on from the cursor the earlier ones left. -/
theorem FillsMemory.trans {s t u : State} (h : FillsMemory s t) (h' : FillsMemory t u) : FillsMemory s u := by
  obtain ⟨bs, hbs, hlen, hmem⟩ := h.stream
  obtain ⟨cs, hcs, hlen', hmem'⟩ := h'.stream
  obtain ⟨hle, haddr⟩ : t.regs.capRemaining.toNat ≤ s.regs.capRemaining.toNat ∧
    t.regs.capAddr = s.regs.capAddr + (s.regs.capRemaining - t.regs.capRemaining) := h.moves
  have hle' : u.regs.capRemaining.toNat ≤ t.regs.capRemaining.toNat := h'.moves.1
  have hcursor : t.regs.capAddr = localCursor s.regs.capAddr bs.length := by
    rw [haddr, sub_eq_ofNat hle, hlen]
    rfl
  refine ⟨h'.cfg.trans h.cfg, h.moves.trans h'.moves, bs ++ cs, ?_, ?_, fun hbits => ?_⟩
  · rw [hcs, hbs, List.append_assoc]
  · rw [List.length_append]
    omega
  · rw [hmem' (h.cfg ▸ hbits), hmem hbits, h.cfg, hcursor, memWrite_append _ _ hbits]

/-- The completion pulse brings no byte of the source. -/
theorem captured_completion (p : Prop) [Decidable p] (l : Line) :
    captured (if p then [.pulse l] else []) = [] := by
  split <;> rfl

/-- One capture service fills memory. -/
theorem exec_csvc_fillsMemory {b : Nat} {s t : State} (h : exec (.csvc b) s = .next t) : FillsMemory s t := by
  have hmoves : MovesTogether .cap s t := exec_movesTogether (.inl rfl) h
  rcases execCsvc_next h with ⟨_, rfl⟩ | ⟨_, run, hle, hl, rfl⟩
  · exact .refl _
  · have hp := capPasses_of_capLoop hl
    refine ⟨by rw [capFinish_eq], hmoves, captured run.pulls, ?_, (remaining_sub_capFinish hle hp).symm,
      fun hbits => ?_⟩
    · rw [capFinish_eq_serviced, serviced_trace, captured_append, captured_append, captured_completion,
        List.append_nil]
    · rw [capFinish_eq]
      exact (hp.mem_eq_memWrite hbits).trans (by rw [localCursor_zero]; rfl)

/-- A reflexive and transitive relation that holds over every capture service holds over a sequence of them. -/
theorem runAll_csvc_rel {R : State → State → Prop} (hrefl : ∀ s, R s s)
    (htrans : ∀ {s t u}, R s t → R t u → R s u) (hexec : ∀ {b s t}, exec (.csvc b) s = .next t → R s t)
    {bs : List Nat} {s t : State} (h : runAll (bs.map .csvc) s = .next t) : R s t :=
  runAll_rel (P := fun i => ∃ b, i = .csvc b) hrefl htrans (by rintro _ _ _ ⟨b, rfl⟩; exact hexec)
    (List.forall_mem_map.mpr fun b _ => ⟨b, rfl⟩) h

/-- Settles O24: every service fills memory, each storing on from where the one before it ended, so that together they
are one burst store of the stream, and the address width holds it without overlap. -/
theorem memoryReceivesTheStreamContiguously : Obligations.MemoryReceivesTheStreamContiguously := by
  intro bs s t hm hbits hfit h
  have hfills : FillsMemory s t := runAll_csvc_rel .refl .trans exec_csvc_fillsMemory h
  obtain ⟨stream, hcaptured, hlen, hmem⟩ := hfills.stream
  have hlen' : stream.length ≤ 2 ^ s.cfg.paddrBits := (hlen.trans_le (Nat.sub_le _ _)).trans hfit
  refine ⟨stream, hcaptured, hlen, hfills.moves.2, fun k hk => ?_, fun a ha => ?_⟩ <;> rw [hmem hbits]
  · exact memWrite_read_inside _ hm hlen' k hk
  · exact memWrite_read_outside _ _ _ hm a ha

/-- Settles O32: the services go on with one transfer, and a drained channel wants nothing. -/
theorem armedCaptureCompletesExactlyOnce : Obligations.ArmedCaptureCompletesExactlyOnce := by
  intro bs s t hen hrem h
  have hgo : TransferGoesOn .cap s t :=
    runAll_csvc_rel (.refl .cap) .trans (exec_transferGoesOn (ch := .cap) rfl) h
  refine ⟨hgo.moves.2, (hgo.pulses hen).trans ?_, fun h0 b => ?_⟩
  · congr 2
    exact propext (and_iff_right hrem)
  · refine (budgetEntersOnlyThroughWant b t).2.1 ?_
    rw [h0]
    exact Nat.zero_min b

end Sys2Proof.Machine
end

/-! The family of spec/44_lifecycle.md: RESTORE of any snapshot (R211) and of one just saved (R214). -/

section
namespace Sys2Proof.Machine

/-- A payload that lists a snapshot's words restores that snapshot (30_encoding.md R99). -/
theorem withSnapshot_toWords (w : RegFile) : withSnapshot w.toWords = .ok (.rstr w) := by
  rw [withSnapshot, RegFile.ofWords_toWords]

/-- RSTR loads the snapshot, sets each flag to its restored enable bit and keeps the rest (44_lifecycle.md R211). -/
theorem exec_rstr (w : RegFile) (s : State) :
    exec (.rstr w) s =
      .next { s with regs := w, playActive := w.playCtrl.getLsbD 0, capActive := w.capCtrl.getLsbD 0 } := rfl

/-- Settles O36: the row of RSTR decodes by its payload alone, and RSTR answers the loaded state. -/
theorem restoreLoadsTheSnapshotAndReevaluates : Obligations.RestoreLoadsTheSnapshotAndReevaluates :=
  ⟨fun _ => withSnapshot_toWords, exec_rstr⟩

/-- Settles O37: the words loaded are those the state has, and flags that match are what re-evaluation sets. -/
theorem restoreOfASavedSnapshotIsTheIdentity : Obligations.RestoreOfASavedSnapshotIsTheIdentity := by
  rintro s ⟨hplay, hcap⟩
  rw [exec_rstr, snapshot, ← hplay, ← hcap]

end Sys2Proof.Machine
end

/-! The family of spec/60_exceptions.md, part 1: the causes of the four interrupt lines (R230 to R233), at most one
pulse for each operation (R235), and an answer from every operation (R225). -/

section
namespace Sys2Proof.Machine

/-- The lines a write of `v` to CODEC_CTRL pulses (60_exceptions.md R230, R231). -/
def commandLines (v : Word) : List Line :=
  if v.getLsbD 0 then [if v.getLsbD 1 then .codecRequest else .codecReply] else []

theorem commandLines_length_le_one (v : Word) : (commandLines v).length ≤ 1 := by
  unfold commandLines
  split
  · exact Nat.le_refl _
  · exact Nat.zero_le _

theorem count_codecRequest_commandLines (v : Word) :
    (commandLines v).count .codecRequest = if v.getLsbD 0 = true ∧ v.getLsbD 1 = true then 1 else 0 := by
  unfold commandLines
  cases v.getLsbD 0 <;> cases v.getLsbD 1 <;> rfl

theorem count_codecReply_commandLines (v : Word) :
    (commandLines v).count .codecReply = if v.getLsbD 0 = true ∧ v.getLsbD 1 = false then 1 else 0 := by
  unfold commandLines
  cases v.getLsbD 0 <;> cases v.getLsbD 1 <;> rfl

theorem pulses_writeEvents_codecCtrl (v : Word) (s : State) :
    pulses (writeEvents .codecCtrl v s) = commandLines v := by
  by_cases hv : v.getLsbD 0 = true
  · rw [pulses_writeEvents_command hv, commandLines, if_pos hv]
  · rw [writeEvents, commandLines, if_neg hv, if_neg hv]
    rfl

/-- A write of CODEC_CTRL appends the pulses of its command. -/
theorem exec_wrCodecCtrl_pulses {v : Word} {s t : State} (h : exec (.wrCodecCtrl v) s = .next t) :
    pulses t.trace = pulses s.trace ++ commandLines v := by
  rw [exec_wrCodecCtrl] at h
  cases h
  rw [written_trace, pulses_append, pulses_writeEvents_codecCtrl]

/-- Any other operation pulses nothing, or one completion line once. -/
theorem exec_pulses_of_ne_command {i : Instr} {s t : State} (hi : ∀ v, i ≠ .wrCodecCtrl v)
    (h : exec i s = .next t) :
    pulses t.trace = pulses s.trace ∨ ∃ ch : Channel, pulses t.trace = pulses s.trace ++ [ch.doneLine] := by
  cases exec_effect h with
  | report _ _ hes => exact .inl (by rw [emit_trace, pulses_append, hes, List.append_nil])
  | command v => exact absurd rfl (hi v)
  | store | control | reset | restore | idle => exact .inl rfl
  | @service _ ch _ _ _ _ _ _ _ _ _ hes =>
    rw [serviced_trace, pulses_append, pulses_append, hes, List.append_nil, pulses_completion]
    split
    · exact .inr ⟨ch, rfl⟩
    · exact .inl (List.append_nil _)

/-- No operation but a write of CODEC_CTRL pulses a line that is no completion line. -/
theorem exec_pulseCount_of_ne_command {i : Instr} {s t : State} {l : Line} (hl : ∀ ch : Channel, ch.doneLine ≠ l)
    (hi : ∀ v, i ≠ .wrCodecCtrl v) (h : exec i s = .next t) : pulseCount l t.trace = pulseCount l s.trace := by
  unfold pulseCount
  rcases exec_pulses_of_ne_command hi h with hp | ⟨ch, hp⟩
  · rw [hp]
  · rw [hp, List.count_append, List.count_singleton, if_neg (by simpa using hl ch), Nat.add_zero]

/-- Settles O42: a write of CODEC_CTRL appends the pulses of its command, and any other operation pulses at most a
completion line. -/
theorem codecLinesPulseOnlyOnCommandWrites : Obligations.CodecLinesPulseOnlyOnCommandWrites := by
  refine fun i s t h => ⟨?_, fun hi => ?_⟩
  · rintro v rfl
    have hp := exec_wrCodecCtrl_pulses h
    simp only [pulseCount, hp, List.count_append, count_codecRequest_commandLines, count_codecReply_commandLines,
      and_self]
  · exact ⟨exec_pulseCount_of_ne_command (fun ch => by cases ch <;> decide) hi h,
      exec_pulseCount_of_ne_command (fun ch => by cases ch <;> decide) hi h⟩

/-- Settles O44: a command has at most one line, and any other operation pulses at most one completion line. -/
theorem oneOperationMakesAtMostOnePulse : Obligations.OneOperationMakesAtMostOnePulse := by
  intro i s t h
  by_cases hi : ∃ v, i = .wrCodecCtrl v
  · obtain ⟨v, rfl⟩ := hi
    exact ⟨_, exec_wrCodecCtrl_pulses h, commandLines_length_le_one v⟩
  · rcases exec_pulses_of_ne_command (not_exists.mp hi) h with hp | ⟨ch, hp⟩
    · exact ⟨[], hp.trans (List.append_nil _).symm, Nat.zero_le _⟩
    · exact ⟨_, hp, Nat.le_refl _⟩

/-- A service completes its channel's transfer when the enable bit is 1 and the counter 0 at its end, and bytes have
moved (60_exceptions.md R232, R233). -/
theorem completes_iff_drained {i : Instr} {ch : Channel} {s t : State} (hi : servicedChannel i = some ch)
    (h : exec i s = .next t) :
    Completes ch i s t ↔ (t.regs.get ch.ctrl).getLsbD 0 = true ∧ t.regs.get ch.remaining = 0 ∧
      t.regs.get ch.remaining ≠ s.regs.get ch.remaining := by
  rw [Completes, and_iff_right hi, exec_service_get_ctrl hi h]
  refine and_congr_right fun _ => and_comm.trans (and_congr_right fun hdone => ?_)
  rw [hdone]
  exact ne_comm

/-- The service operation of a channel (30_encoding.md R93). -/
def serviceOf : Channel → Nat → Instr
  | .play => .psvc
  | .cap => .csvc

theorem eq_serviceOf_of_servicedChannel {i : Instr} {ch : Channel} (hi : servicedChannel i = some ch) :
    ∃ b, i = serviceOf ch b := by
  cases i with
  | psvc b | csvc b =>
    cases hi
    exact ⟨b, rfl⟩
  | _ => cases hi

/-- A service pulses its channel's completion line once if it has drained the channel, and else not. -/
theorem exec_service_pulseCount {i : Instr} {ch : Channel} {s t : State} (hi : servicedChannel i = some ch)
    (h : exec i s = .next t) :
    pulseCount ch.doneLine t.trace = pulseCount ch.doneLine s.trace +
      if (t.regs.get ch.ctrl).getLsbD 0 = true ∧ t.regs.get ch.remaining = 0 ∧
        t.regs.get ch.remaining ≠ s.regs.get ch.remaining then 1 else 0 := by
  rw [exec_pulseCount_doneLine h]
  exact congrArg _ (if_congr (completes_iff_drained hi h) rfl rfl)

/-- An operation that is no service of a channel does not pulse its completion line. -/
theorem exec_pulseCount_of_not_service {i : Instr} {ch : Channel} {s t : State} (hi : servicedChannel i ≠ some ch)
    (h : exec i s = .next t) : pulseCount ch.doneLine t.trace = pulseCount ch.doneLine s.trace := by
  rw [exec_pulseCount_doneLine h, if_neg fun hc => hi hc.1, Nat.add_zero]

/-- Settles O43: the two services are those of the two channels, and each pulses its own channel's line by the state
it leaves. -/
theorem completionLinesPulseOnlyOnDrainingServices : Obligations.CompletionLinesPulseOnlyOnDrainingServices := by
  refine fun i s t h => ⟨?_, fun hi => ?_, ?_, fun hi => ?_⟩
  · rintro b rfl
    exact exec_service_pulseCount (ch := .play) rfl h
  · exact exec_pulseCount_of_not_service (ch := .play) (fun hs => (eq_serviceOf_of_servicedChannel hs).elim hi) h
  · rintro b rfl
    exact exec_service_pulseCount (ch := .cap) rfl h
  · exact exec_pulseCount_of_not_service (ch := .cap) (fun hs => (eq_serviceOf_of_servicedChannel hs).elim hi) h

/-- An operation that is no service answers a next state (60_exceptions.md R225). -/
theorem exec_ok_of_no_service {i : Instr} (hi : servicedChannel i = none) (s : State) :
    ∃ t, exec i s = .next t := by
  cases i with
  | psvc | csvc => cases hi
  | _ => exact ⟨_, rfl⟩

/-- Settles O48: the meanings that are no service have no other outcome, and both chunk loops come to an end where no
burst is refused. -/
theorem noOperationFails : Obligations.NoOperationFails :=
  ⟨fun _ s hi => exec_ok_of_no_service hi s, fun _ _ => execPsvc_ok, fun _ _ => execCsvc_ok⟩

end Sys2Proof.Machine
end

/-! The family of spec/60_exceptions.md, part 2: what has left the block is never read or taken back (R226, R229), and
no operation changes the parameters (00_scope.md section 4). -/

section
namespace Sys2Proof.Machine

/-- The state with earlier outputs put before its trace. -/
def withPast (tr : List Event) (s : State) : State := { s with trace := tr ++ s.trace }

section Past
variable (tr : List Event) (s : State)

@[simp] theorem withPast_regs : (withPast tr s).regs = s.regs := rfl
@[simp] theorem withPast_mem : (withPast tr s).mem = s.mem := rfl
@[simp] theorem withPast_cfg : (withPast tr s).cfg = s.cfg := rfl
@[simp] theorem withPast_sinkAnswers : (withPast tr s).sinkAnswers = s.sinkAnswers := rfl
@[simp] theorem withPast_sourceAnswers : (withPast tr s).sourceAnswers = s.sourceAnswers := rfl

theorem want_withPast (ch : Channel) (b : Nat) : want ch b (withPast tr s) = want ch b s := by
  rw [want, withPast_regs, want]

theorem emit_withPast (es : List Event) : emit es (withPast tr s) = withPast tr (emit es s) := by
  simp only [emit, withPast, List.append_assoc]

theorem reservedDiag_withPast (c : DiagCode) : reservedDiag c (withPast tr s) = withPast tr (reservedDiag c s) := by
  rw [reservedDiag_eq_emit, reservedDiag_eq_emit, emit_withPast, withPast_cfg]

theorem codecPulse_withPast (v : Word) : codecPulse v (withPast tr s) = withPast tr (codecPulse v s) := by
  rw [codecPulse_eq_emit, codecPulse_eq_emit, emit_withPast]

theorem commit_withPast (ch : Channel) (n : Nat) : commit ch n (withPast tr s) = withPast tr (commit ch n s) := rfl

theorem complete_withPast (ch : Channel) : complete ch (withPast tr s) = withPast tr (complete ch s) := by
  rw [complete_eq_emit, complete_eq_emit, emit_withPast, withPast_regs]

theorem serviced_withPast (ch : Channel) (n : Nat) (es : List Event) (mem : Memory) (sink : List Nat)
    (source : List (List Byte)) :
    serviced ch n es mem sink source (withPast tr s) = withPast tr (serviced ch n es mem sink source s) := by
  unfold serviced
  rw [← complete_withPast, ← commit_withPast, ← emit_withPast]
  rfl

/-- A playback service does the same whatever has left the block. -/
theorem execPsvc_withPast (b : Nat) : execPsvc b (withPast tr s) = mapNext (withPast tr) (execPsvc b s) := by
  simp only [execPsvc, want_withPast, withPast_regs, withPast_cfg, withPast_mem, withPast_sinkAnswers]
  split
  · rfl
  · rcases playLoop s.cfg s.mem _ _ s.sinkAnswers 0 with r | run
    · rfl
    · exact congrArg Host.Outcome.next (serviced_withPast ..)

/-- A capture service does the same whatever has left the block. -/
theorem execCsvc_withPast (b : Nat) : execCsvc b (withPast tr s) = mapNext (withPast tr) (execCsvc b s) := by
  simp only [execCsvc, want_withPast, withPast_regs, withPast_cfg, withPast_mem, withPast_sourceAnswers]
  split
  · rfl
  · rcases capLoop s.cfg _ _ s.sourceAnswers s.mem 0 with r | run
    · rfl
    · exact congrArg Host.Outcome.next (serviced_withPast ..)

/-- Every operation does the same whatever has left the block (60_exceptions.md R226, R229). -/
theorem exec_withPast (i : Instr) : exec i (withPast tr s) = mapNext (withPast tr) (exec i s) := by
  cases i with
  | rdCodecCtrl | rdCodecAddr | rdCodecDataOut | rdCodecDataIn | rdPlayCtrl | rdPlayAddr | rdPlayRemaining
  | rdCapCtrl | rdCapAddr | rdCapRemaining | wrOutOfRange =>
    exact congrArg Host.Outcome.next (emit_withPast tr s _)
  | rdOutOfRange =>
    exact congrArg Host.Outcome.next ((congrArg (emit _) (emit_withPast tr s _)).trans (emit_withPast tr _ _))
  | rdReserved =>
    exact congrArg Host.Outcome.next
      ((congrArg (reservedDiag _) (emit_withPast tr s _)).trans (reservedDiag_withPast tr _ _))
  | wrReserved => exact congrArg Host.Outcome.next (reservedDiag_withPast tr s _)
  | wrCodecCtrl v =>
    exact congrArg (fun t => Host.Outcome.next (storeReg .codecCtrl (codecStored v) t)) (codecPulse_withPast tr s v)
  | wrCodecAddr | wrCodecDataOut | wrCodecDataIn | wrPlayCtrl | wrPlayAddr | wrPlayRemaining | wrCapCtrl
  | wrCapAddr | wrCapRemaining | rst | rstr => rfl
  | psvc b => exact execPsvc_withPast tr s b
  | csvc b => exact execCsvc_withPast tr s b

end Past

theorem mapNext_eq_next {f : State → State} {o : Host.Outcome State Fault Refusal} {t : State}
    (h : mapNext f o = .next t) : ∃ u, o = .next u ∧ t = f u := by
  cases o with
  | next u =>
    cases h
    exact ⟨u, rfl, rfl⟩
  | fault | refused => cases h

/-- Settles O51: the operation does from the empty trace what it does after any past, so the events it appends are
the trace it leaves there. -/
theorem traceIsOnlyAppendedTo : Obligations.TraceIsOnlyAppendedTo := by
  intro i s t h
  have hpast (tr : List Event) : { s with trace := tr } = withPast tr { s with trace := [] } := by
    rw [withPast, List.append_nil]
  rw [show s = withPast s.trace { s with trace := [] } from hpast s.trace, exec_withPast] at h
  obtain ⟨u, hu, rfl⟩ := mapNext_eq_next h
  refine ⟨u.trace, fun tr => ?_⟩
  rw [hpast tr, exec_withPast, hu]
  rfl

/-- No operation takes an output back (60_exceptions.md R229). -/
theorem exec_trace_prefix {i : Instr} {s t : State} (h : exec i s = .next t) : s.trace <+: t.trace := by
  obtain ⟨es, hes⟩ := traceIsOnlyAppendedTo i s t h
  exact ⟨es, congrArg State.trace (Host.Outcome.next.inj ((hes s.trace).symm.trans h))⟩

theorem serviced_cfg (ch : Channel) (n : Nat) (es : List Event) (mem : Memory) (sink : List Nat)
    (source : List (List Byte)) (s : State) : (serviced ch n es mem sink source s).cfg = s.cfg := by
  unfold serviced
  rw [complete_eq_emit, commit_eq]
  rfl

/-- No operation changes the parameters (00_scope.md section 4). -/
theorem exec_cfg {i : Instr} {s t : State} (h : exec i s = .next t) : t.cfg = s.cfg := by
  cases exec_effect h with
  | report | store | control | reset | restore | idle => rfl
  | command v => rw [codecPulse_eq_emit]; rfl
  | service => exact serviced_cfg ..

/-- Settles O60: the parameters and the past outputs of the state before the step are kept by every operation, and a
host store touches neither. -/
theorem stepKeepsParametersAndPastOutputs : Obligations.StepKeepsParametersAndPastOutputs := by
  intro s t h
  refine step_keeps (P := fun u => u.cfg = s.cfg ∧ s.trace <+: u.trace) (fun _ _ hu => hu) (fun _ _ _ hu => hu)
    (fun i u v hu he => ?_) ⟨rfl, List.prefix_rfl⟩ h
  obtain ⟨hcfg, htrace⟩ := hu
  exact ⟨(exec_cfg he).trans hcfg, htrace.trans (exec_trace_prefix he)⟩

end Sys2Proof.Machine
end

/-! The family of spec/70_reset_and_hazards.md: a service after a rewrite of its channel's cursor or counter (R265),
and after an enable of a drained channel (R266, R267). -/

section
namespace Sys2Proof.Machine

theorem runAll_pair {i j : Instr} {s t u : State} (hi : exec i s = .next t) (hj : exec j t = .next u) :
    runAll [i, j] s = .next u :=
  (runAll_cons_of_next hi _).trans (runAll_cons_of_next hj _)

/-- A burst read takes the byte at each address of the burst (20_memory.md R71). -/
theorem memRead_eq_map_range (cfg : Config) (mem : Memory) (c : Word) (n : Nat) :
    memRead cfg mem c n = (List.range n).map fun k => mem.read ((c.toNat + k) % 2 ^ cfg.paddrBits) :=
  List.map_map

/-- A service's first offer is made at the cursor itself (42_playback_dma.md R172). -/
theorem playOffer_zero (cfg : Config) (mem : Memory) (base : Word) (want a : Nat) :
    playOffer cfg mem base want 0 a =
      .offer base (memRead cfg mem base (min (cfg.stagingBytes : Nat) want)) (taken a (chunkSize cfg want 0)) := by
  rw [playOffer, localCursor_zero]
  rfl

/-- A playback loop that wants a byte begins with the offer of the place where it stands. -/
theorem PlayPasses.offers_eq_cons {cfg : Config} {mem : Memory} {base : Word} {want done : Nat} {answers : List Nat}
    {run : PlayRun} (h : PlayPasses cfg mem base want answers done run) (hlt : done < want) :
    ∃ a es, run.offers = playOffer cfg mem base want done a :: es := by
  cases h with
  | ended hle => omega
  | stopped | moved => exact ⟨_, _, rfl⟩

/-- A capture loop that wants a byte begins with the pull of the place where it stands. -/
theorem CapPasses.pulls_eq_cons {cfg : Config} {base : Word} {want done : Nat} {answers : List (List Byte)}
    {mem : Memory} {run : CapRun} (h : CapPasses cfg base want answers mem done run) (hlt : done < want) :
    ∃ burst es, run.pulls = capPull cfg want done burst :: es := by
  cases h with
  | ended hle => omega
  | stopped | moved => exact ⟨_, _, rfl⟩

/-- A playback service with a budget and bytes left, none of whose bursts is refused, offers first the bytes at its
cursor, as many as a chunk holds (42_playback_dma.md R170, R172). -/
theorem exec_psvc_first_offer {b : Nat} {s : State} (hb : b ≠ 0) (hr : s.regs.playRemaining ≠ 0)
    (hclear : BurstsClear .play b s) :
    ∃ (t : State) (k : Nat) (es : List Event), exec (.psvc b) s = .next t ∧
      t.trace = s.trace ++ .offer s.regs.playAddr
        (memRead s.cfg s.mem s.regs.playAddr (min (s.cfg.stagingBytes : Nat) (want .play b s))) k :: es := by
  obtain ⟨t, ht⟩ := execPsvc_ok hclear
  have hw : 0 < want .play b s := want_pos hb hr
  rcases execPsvc_next ht with ⟨h0, _⟩ | ⟨_, run, _, hl, rfl⟩
  · omega
  · obtain ⟨a, es, hoffers⟩ := (playPasses_of_playLoop hl).offers_eq_cons hw
    have htrace : (playFinish s run).trace = _ := serviced_trace .play ..
    rw [hoffers, playOffer_zero, List.append_assoc] at htrace
    exact ⟨_, _, _, ht, htrace⟩

/-- A capture service with a budget and bytes left, none of whose bursts is refused, pulls first for a chunk
(43_capture_dma.md R190, R192). -/
theorem exec_csvc_first_pull {b : Nat} {s : State} (hb : b ≠ 0) (hr : s.regs.capRemaining ≠ 0)
    (hclear : BurstsClear .cap b s) :
    ∃ (t : State) (bytes : List Byte) (es : List Event), exec (.csvc b) s = .next t ∧
      t.trace = s.trace ++ .pull (min (s.cfg.stagingBytes : Nat) (want .cap b s)) bytes :: es := by
  obtain ⟨t, ht⟩ := execCsvc_ok hclear
  have hw : 0 < want .cap b s := want_pos hb hr
  rcases execCsvc_next ht with ⟨h0, _⟩ | ⟨_, run, _, hl, rfl⟩
  · omega
  · obtain ⟨burst, es, hpulls⟩ := (capPasses_of_capLoop hl).pulls_eq_cons hw
    have htrace : (capFinish s run).trace = _ := serviced_trace .cap ..
    rw [hpulls, List.append_assoc] at htrace
    exact ⟨_, _, _, ht, htrace⟩

/-- One capture service stores what the source produces from the cursor on and nowhere else, and leaves the cursor
after it (43_capture_dma.md R196). -/
theorem exec_csvc_stores_stream {b : Nat} {s t : State} (hm : MemCanonical s) (hbits : s.cfg.paddrBits ≤ 32)
    (hfit : s.regs.capRemaining.toNat ≤ 2 ^ s.cfg.paddrBits) (h : exec (.csvc b) s = .next t) :
    ∃ stream : List Byte, captured t.trace = captured s.trace ++ stream ∧
      t.regs.capAddr = s.regs.capAddr + BitVec.ofNat 32 stream.length ∧
      (∀ k (hk : k < stream.length),
        t.mem.read ((s.regs.capAddr.toNat + k) % 2 ^ s.cfg.paddrBits) = stream[k]) ∧
      (∀ a, (∀ k, k < stream.length → (s.regs.capAddr.toNat + k) % 2 ^ s.cfg.paddrBits ≠ a) →
        t.mem.read a = s.mem.read a) := by
  obtain ⟨stream, hcaptured, hlen, hcursor, hinside, houtside⟩ :=
    memoryReceivesTheStreamContiguously [b] s t hm hbits hfit (runAll_cons_of_next h [])
  have hle : t.regs.capRemaining.toNat ≤ s.regs.capRemaining.toNat := (exec_movesTogether (ch := .cap) (.inl rfl) h).1
  refine ⟨stream, hcaptured, ?_, hinside, houtside⟩
  rw [hlen, ← sub_eq_ofNat hle]
  exact hcursor

/-- Settles O30: the write answers the state with the new word, and what a service exchanges first and where capture
stores depend on the words of the state it starts from alone. -/
theorem liveChannelFollowsARewrittenRegister : Obligations.LiveChannelFollowsARewrittenRegister := by
  intro v b s hb
  refine ⟨fun hr hclear => ?_, fun hv hclear => ?_, fun hm hbits hfit hclear => ?_, fun hv hclear => ?_⟩
  · obtain ⟨t, k, es, ht, htrace⟩ := exec_psvc_first_offer (s := storeReg .playAddr v s) hb hr hclear
    rw [memRead_eq_map_range] at htrace
    exact ⟨t, k, es, runAll_pair rfl ht, htrace⟩
  · obtain ⟨t, k, es, ht, htrace⟩ := exec_psvc_first_offer (s := storeReg .playRemaining v s) hb hv hclear
    obtain ⟨hle, hcursor⟩ := exec_movesTogether (ch := .play) (.inl rfl) ht
    refine ⟨t, _, k, es, runAll_pair rfl ht, htrace, ?_, hle, hcursor⟩
    rw [memRead_eq_map_range, List.length_map, List.length_range]
    rfl
  · obtain ⟨t, ht⟩ : ∃ t, exec (.csvc b) (storeReg .capAddr v s) = .next t := execCsvc_ok hclear
    obtain ⟨stream, hstream⟩ := exec_csvc_stores_stream (s := storeReg .capAddr v s) hm hbits hfit ht
    exact ⟨t, stream, runAll_pair rfl ht, hstream⟩
  · obtain ⟨t, bytes, es, ht, htrace⟩ := exec_csvc_first_pull (s := storeReg .capRemaining v s) hb hv hclear
    obtain ⟨hle, hcursor⟩ := exec_movesTogether (ch := .cap) (.inl rfl) ht
    exact ⟨t, bytes, es, runAll_pair rfl ht, htrace, hle, hcursor⟩

/-- A channel whose counter is 0 wants nothing, whatever the budget (42_playback_dma.md R171, 43_capture_dma.md
R191). -/
theorem want_of_remaining_eq_zero {ch : Channel} {s : State} (h0 : s.regs.get ch.remaining = 0) (b : Nat) :
    want ch b s = 0 := by
  rw [want, h0]
  exact Nat.zero_min b

/-- Settles O34: the write of CTRL leaves the counter at 0 and puts nothing out, so the service wants nothing. -/
theorem enablingADrainedChannelNeverPulses : Obligations.EnablingADrainedChannelNeverPulses := by
  refine fun v b s => ⟨fun h0 => ?_, fun h0 => ?_⟩
  · refine ⟨_, runAll_pair (exec_writeSlot_ctrl v s .play) (execPsvc_of_want_eq_zero ?_), rfl, h0⟩
    exact want_of_remaining_eq_zero (ch := .play) h0 b
  · refine ⟨_, runAll_pair (exec_writeSlot_ctrl v s .cap) (execCsvc_of_want_eq_zero ?_), rfl, h0⟩
    exact want_of_remaining_eq_zero (ch := .cap) h0 b

end Sys2Proof.Machine
end

/-! The frame of the eleven words over all 28 operations (10_state.md section 1), and the verbatim writes of cursors
and counters (41_register_write.md R146, R147, R150, R151). -/

section
namespace Sys2Proof.Machine

/-- Settles O40: `exec_effect` lists every way an operation acts, and each of them leaves the words outside
`mayWrite`. -/
theorem wordsChangeOnlyByTheirWriters : Obligations.WordsChangeOnlyByTheirWriters :=
  fun _ _ _ _ h hr => exec_get_of_notMem_mayWrite h hr

/-- Settles O13: the four rows decode by evaluation, and a slot without a control bit takes the value and nothing
else. -/
theorem cursorAndCounterWritesStoreVerbatim : Obligations.CursorAndCounterWritesStoreVerbatim :=
  ⟨fun _ => ⟨rfl, rfl, rfl, rfl⟩, fun v s =>
    ⟨exec_writeSlot_verbatim v s (r := .playAddr) (by decide),
      exec_writeSlot_verbatim v s (r := .playRemaining) (by decide),
      exec_writeSlot_verbatim v s (r := .capAddr) (by decide),
      exec_writeSlot_verbatim v s (r := .capRemaining) (by decide)⟩⟩

end Sys2Proof.Machine
end
